-- ==== Sys2Proof/Word.lean ====
section
/-! DEFINITION. The word type and the register number (00_scope.md R8, R9). -/

namespace Sys2Proof

/-- A word: 32 bits, bit 0 the least significant (R9; XLEN = ILEN = 32, R8). Its unsigned reading u32 is
`BitVec.toNat`, its two's-complement reading s32 is `BitVec.toInt`; `+` and `-` are R10's sum and difference
modulo 2^32, and `<` is R10's unsigned comparison. -/
abbrev Word := BitVec 32

/-- The number of one of the NREG = 16 general registers: every value of a 4-bit field names one (R21, R91). -/
abbrev RegId := BitVec 4

end Sys2Proof
end

