-- ==== Sys2Proof/Syntax.lean ====
section
/-! DEFINITION. The instructions (30_encoding.md): the decoded fields of a word, the seven branch conditions, and
one constructor of `Instr` for each row of the opcode table. -/

namespace Sys2Proof

/-- The fields of a decoded word, all four payload readings of it among them (R81, R82, R84). `value`, `address`
and `offset` are already extended to 32 bits (R86 to R88). -/
structure Fields where
  op : BitVec 6
  imm : Bool
  idx : Bool
  rc : BitVec 4
  value : Word
  address : Word
  base : RegId
  offset : Word
  deriving DecidableEq, Repr

/-- The seven branch conditions (R90). -/
inductive Cond where
  | nc | eq | ne | gt | ge | lt | le
  deriving DecidableEq, Repr

/-- One constructor for each row of the opcode table. The suffixes Imm, Abs and Idx name the addressing mode
(R85): `value` is the sign-extended literal (R86), `address` the zero-extended address (R87), `base` and `offset`
the base register and the sign-extended offset (R88). `cond` is the raw 4-bit condition field, whose values 7..15
are no condition (R90). Fields an opcode ignores (R92) are not kept. -/
inductive Instr where
  /-- op 0 (R201) -/
  | illop
  /-- op 1 (R200) -/
  | nop
  /-- op 2, `LOAD rN, #v` (R160) -/
  | loadImm (rd : RegId) (value : Word)
  /-- op 2, `LOAD rN, @a` (R160) -/
  | loadAbs (rd : RegId) (address : Word)
  /-- op 2, `LOAD rN, +o[rB]` (R160) -/
  | loadIdx (rd : RegId) (base : RegId) (offset : Word)
  /-- op 3 with imm = 1, the illegal form (R131) -/
  | storeImm (rs : RegId) (value : Word)
  /-- op 3, `STORE rN, @a` (R161) -/
  | storeAbs (rs : RegId) (address : Word)
  /-- op 3, `STORE rN, +o[rB]` (R161) -/
  | storeIdx (rs : RegId) (base : RegId) (offset : Word)
  /-- op 4, `ADD rN, #v` (R170) -/
  | addImm (rd : RegId) (value : Word)
  /-- op 4, `ADD rN, @a` (R170) -/
  | addAbs (rd : RegId) (address : Word)
  /-- op 4, `ADD rN, +o[rB]` (R170) -/
  | addIdx (rd : RegId) (base : RegId) (offset : Word)
  /-- op 5, `SUB rN, #v` (R171) -/
  | subImm (rd : RegId) (value : Word)
  /-- op 5, `SUB rN, @a` (R171) -/
  | subAbs (rd : RegId) (address : Word)
  /-- op 5, `SUB rN, +o[rB]` (R171) -/
  | subIdx (rd : RegId) (base : RegId) (offset : Word)
  /-- op 6 with imm = 1, the illegal form (R131) -/
  | branchImm (cond : BitVec 4) (value : Word)
  /-- op 6, `BRANCH cc, @a` (R180) -/
  | branchAbs (cond : BitVec 4) (address : Word)
  /-- op 6, `BRANCH cc, +o[rB]` (R180) -/
  | branchIdx (cond : BitVec 4) (base : RegId) (offset : Word)
  /-- op 7 with imm = 1, the illegal form (R131) -/
  | callImm (cond : BitVec 4) (value : Word)
  /-- op 7, `CALL cc, @a` (R181) -/
  | callAbs (cond : BitVec 4) (address : Word)
  /-- op 7, `CALL cc, +o[rB]` (R181) -/
  | callIdx (cond : BitVec 4) (base : RegId) (offset : Word)
  /-- op 8 (R182) -/
  | ret
  /-- op 9, `PUSH #v` (R190) -/
  | pushImm (value : Word)
  /-- op 9, `PUSH @a` (R190) -/
  | pushAbs (address : Word)
  /-- op 9, `PUSH +o[rB]` (R190) -/
  | pushIdx (base : RegId) (offset : Word)
  /-- op 10 with imm = 1, the illegal form (R131) -/
  | popImm (value : Word)
  /-- op 10, `POP @a` (R191) -/
  | popAbs (address : Word)
  /-- op 10, `POP +o[rB]` (R191) -/
  | popIdx (base : RegId) (offset : Word)
  /-- op 11 (R202) -/
  | halt
  /-- op 12..15, an unknown opcode (R203) -/
  | unknown12 (op : BitVec 6)
  /-- op 16..31, an unknown opcode (R203) -/
  | unknown16 (op : BitVec 6)
  /-- op 32..63, an unknown opcode (R203) -/
  | unknown32 (op : BitVec 6)
  deriving DecidableEq, Repr

end Sys2Proof
end

