-- ==== Sys2Proof/WellFormed.lean ====
section
/-! DEFINITION. Which terms of `Instr` an instruction word can hold: the encoder's side conditions of 30_encoding.md
R94, and the opcode ranges of the three unknown rows (R89, R203). -/

namespace Sys2Proof

/-- An immediate literal fits 20 signed bits: -2^19 <= s32(value) < 2^19 (R86, R94). -/
def fitsValue (v : Word) : Bool := decide (-524288 ≤ v.toInt ∧ v.toInt < 524288)

/-- An absolute address fits 20 unsigned bits: address <u 2^20 (R87, R94). -/
def fitsAddress (a : Word) : Bool := decide (a.toNat < 1048576)

/-- An indexed offset fits 16 signed bits: -2^15 <= s32(offset) < 2^15 (R88, R94). -/
def fitsOffset (o : Word) : Bool := decide (-32768 ≤ o.toInt ∧ o.toInt < 32768)

/-- An opcode number lies in the range lo .. hi - 1. -/
def opWithin (lo hi : Nat) (op : BitVec 6) : Bool := decide (lo ≤ op.toNat ∧ op.toNat < hi)

/-- Well-formed: some instruction word encodes the term. -/
def Instr.wf : Instr → Bool
  | .illop | .nop | .ret | .halt => true
  | .loadImm _ v | .storeImm _ v | .addImm _ v | .subImm _ v => fitsValue v
  | .branchImm _ v | .callImm _ v | .pushImm v | .popImm v => fitsValue v
  | .loadAbs _ a | .storeAbs _ a | .addAbs _ a | .subAbs _ a => fitsAddress a
  | .branchAbs _ a | .callAbs _ a | .pushAbs a | .popAbs a => fitsAddress a
  | .loadIdx _ _ o | .storeIdx _ _ o | .addIdx _ _ o | .subIdx _ _ o => fitsOffset o
  | .branchIdx _ _ o | .callIdx _ _ o | .pushIdx _ o | .popIdx _ o => fitsOffset o
  | .unknown12 op => opWithin 12 16 op
  | .unknown16 op => opWithin 16 32 op
  | .unknown32 op => opWithin 32 64 op

end Sys2Proof
end

