-- ==== Sys2Proof/Decode.lean ====
section
/-! DEFINITION. The decoder and the encoder (30_encoding.md). This file is the parameter LAYOUT (00_scope.md R8): bit
positions (R83) and opcode numbers (R89) stand here and nowhere else; the condition numbers (R90) stand in
`Sys2Proof.Machine.condOfField`. They are the spec's decisions D2 to D5 (UNVERIFIED, unsafe: notes/assumptions/8.md). -/

namespace Sys2Proof

/-- `op = w[5:0]` (R83). -/
def opField (w : Word) : BitVec 6 := w.extractLsb' 0 6

/-- `imm = w[6]` (R83). -/
def immField (w : Word) : Bool := w.getLsbD 6

/-- `idx = w[7]` (R83). -/
def idxField (w : Word) : Bool := w.getLsbD 7

/-- `rc = w[11:8]` (R83). -/
def rcField (w : Word) : BitVec 4 := w.extractLsb' 8 4

/-- `w[31:12]`, the payload of the immediate and the absolute view (R83). -/
def payloadField (w : Word) : BitVec 20 := w.extractLsb' 12 20

/-- `base = w[15:12]` (R83). -/
def baseField (w : Word) : RegId := w.extractLsb' 12 4

/-- `w[31:16]`, the offset of the indexed view (R83). -/
def offsetField (w : Word) : BitVec 16 := w.extractLsb' 16 16

/-- The decoder of R84: total, and all payload readings come from the same bits. -/
def decodeFields (w : Word) : Fields where
  op := opField w
  imm := immField w
  idx := idxField w
  rc := rcField w
  value := (payloadField w).signExtend 32
  address := (payloadField w).setWidth 32
  base := baseField w
  offset := (offsetField w).signExtend 32

/-- Addressing-mode selection (R85): `imm` first, `idx` only where `imm` is 0. -/
def selectMode (f : Fields) (onImm onIdx onAbs : Instr) : Instr :=
  if f.imm then onImm else if f.idx then onIdx else onAbs

/-- The row of the opcode table that the fields belong to (R85, R89, R93). -/
def toInstr (f : Fields) : Instr :=
  match f.op.toNat with
  | 0 => .illop
  | 1 => .nop
  | 2 => selectMode f (.loadImm f.rc f.value) (.loadIdx f.rc f.base f.offset) (.loadAbs f.rc f.address)
  | 3 => selectMode f (.storeImm f.rc f.value) (.storeIdx f.rc f.base f.offset) (.storeAbs f.rc f.address)
  | 4 => selectMode f (.addImm f.rc f.value) (.addIdx f.rc f.base f.offset) (.addAbs f.rc f.address)
  | 5 => selectMode f (.subImm f.rc f.value) (.subIdx f.rc f.base f.offset) (.subAbs f.rc f.address)
  | 6 => selectMode f (.branchImm f.rc f.value) (.branchIdx f.rc f.base f.offset) (.branchAbs f.rc f.address)
  | 7 => selectMode f (.callImm f.rc f.value) (.callIdx f.rc f.base f.offset) (.callAbs f.rc f.address)
  | 8 => .ret
  | 9 => selectMode f (.pushImm f.value) (.pushIdx f.base f.offset) (.pushAbs f.address)
  | 10 => selectMode f (.popImm f.value) (.popIdx f.base f.offset) (.popAbs f.address)
  | 11 => .halt
  | n => if n < 16 then .unknown12 f.op else if n < 32 then .unknown16 f.op else .unknown32 f.op

/-- The instruction a word holds. Every word holds one (R84, R93): the decoder never faults and never refuses. -/
def decode (w : Word) : Instr := toInstr (decodeFields w)

/-- The host's word for a table row: one 32-bit instruction word, whose bits from `nbits` up are 0. There is no byte
order to lay out (20_memory.md R58): a text cell holds the word itself. -/
def tableWord (nbits w : Nat) : Word := (BitVec.ofNat nbits w).setWidth 32

/-- What the decoder reads from a table row's word. It refuses no word (R84). -/
def decodeTableWord (nbits w : Nat) : Option Instr := some (decode (tableWord nbits w))

/-- The encoder's word: `payload20 ++ rc ++ idx ++ imm ++ op` (R94). -/
def encodeWord (op : BitVec 6) (imm idx : Bool) (rc : BitVec 4) (payload : BitVec 20) : Word :=
  (payload ++ rc ++ BitVec.ofBool idx ++ BitVec.ofBool imm ++ op : BitVec (20 + 4 + 1 + 1 + 6))

/-- Immediate form: `payload20 = value[19:0]`, and `idx` is written 0 (R94). -/
def encodeImm (op : BitVec 6) (rc : BitVec 4) (value : Word) : Word :=
  encodeWord op true false rc (value.extractLsb' 0 20)

/-- Absolute form: `payload20 = address[19:0]` (R94). -/
def encodeAbs (op : BitVec 6) (rc : BitVec 4) (address : Word) : Word :=
  encodeWord op false false rc (address.extractLsb' 0 20)

/-- Indexed form: `payload20 = offset[15:0] ++ base[3:0]` (R94). -/
def encodeIdx (op : BitVec 6) (rc : BitVec 4) (base : RegId) (offset : Word) : Word :=
  encodeWord op false true rc (offset.extractLsb' 0 16 ++ base : BitVec (16 + 4))

/-- Generic form: the opcode alone (R82, R94). -/
def encodeOp (op : BitVec 6) : Word := encodeWord op false false 0 0

/-- The canonical word of an instruction: 0 in every ignored field (R94). -/
def encode : Instr → Word
  | .illop => encodeOp 0
  | .nop => encodeOp 1
  | .loadImm rd v => encodeImm 2 rd v
  | .loadAbs rd a => encodeAbs 2 rd a
  | .loadIdx rd b o => encodeIdx 2 rd b o
  | .storeImm rs v => encodeImm 3 rs v
  | .storeAbs rs a => encodeAbs 3 rs a
  | .storeIdx rs b o => encodeIdx 3 rs b o
  | .addImm rd v => encodeImm 4 rd v
  | .addAbs rd a => encodeAbs 4 rd a
  | .addIdx rd b o => encodeIdx 4 rd b o
  | .subImm rd v => encodeImm 5 rd v
  | .subAbs rd a => encodeAbs 5 rd a
  | .subIdx rd b o => encodeIdx 5 rd b o
  | .branchImm c v => encodeImm 6 c v
  | .branchAbs c a => encodeAbs 6 c a
  | .branchIdx c b o => encodeIdx 6 c b o
  | .callImm c v => encodeImm 7 c v
  | .callAbs c a => encodeAbs 7 c a
  | .callIdx c b o => encodeIdx 7 c b o
  | .ret => encodeOp 8
  | .pushImm v => encodeImm 9 0 v
  | .pushAbs a => encodeAbs 9 0 a
  | .pushIdx b o => encodeIdx 9 0 b o
  | .popImm v => encodeImm 10 0 v
  | .popAbs a => encodeAbs 10 0 a
  | .popIdx b o => encodeIdx 10 0 b o
  | .halt => encodeOp 11
  | .unknown12 op => encodeOp op
  | .unknown16 op => encodeOp op
  | .unknown32 op => encodeOp op

/-- Which bits of a word the opcode table's row for it names a field over: all but R92's ignored ones. Without an
operand only `op` counts; `idx` counts only where `imm` is 0; PUSH and POP ignore `rc`. -/
def significantMask (w : Word) : Word :=
  match (opField w).toNat with
  | 2 | 3 | 4 | 5 | 6 | 7 => if immField w then 0xFFFFFF7F#32 else 0xFFFFFFFF#32
  | 9 | 10 => if immField w then 0xFFFFF07F#32 else 0xFFFFF0FF#32
  | _ => 0x0000003F#32

/-- A word with every ignored bit cleared: the canonical word that executes identically (R94). -/
def canonicalWord (w : Word) : Word := w &&& significantMask w

end Sys2Proof
end

