-- ==== Sys2Proof/Config.lean ====
section
/-! DEFINITION. The hardware's parameters (00_scope.md R8). LAYOUT is kept in one place, Sys2Proof/Decode.lean;
the setting of SEGTEXT_REPORT is `Sys2Proof.Machine.segTextReport` in Machine/Ops.lean. -/

namespace Sys2Proof.Config

/-- SEGTEXT_REPORT (R8, R121; 90_conflicts.md C2): which address a fetch-time Segment-Text fault records. -/
inductive SegTextReport where
  /-- PC: the out-of-range pc itself. -/
  | pc
  /-- PC_MINUS_1: pc -32 1. -/
  | pcMinus1
  deriving DecidableEq, Repr

/-- TEXT_CAP and DATA_CAP (R8, 20_memory.md R67): OPEN parameters, each in 0 .. 2^32 - 1, which a model takes as
an argument. Only `load` compares with them; no rule of a run does. -/
structure Capacity where
  textCap : Word
  dataCap : Word
  deriving DecidableEq, Repr

end Sys2Proof.Config
end

