-- ==== Sys2Proof/Machine/State.lean ====
section
/-! DEFINITION. The architectural state (10_state.md R20), the reasons a step can stop, and the state after reset
(R40, 70_reset_and_hazards.md R251). -/

namespace Sys2Proof.Machine

/-- The condition code, the only status flag (R29). -/
inductive CondCode where
  | undefined | zero | positive | negative
  deriving DecidableEq, Repr

/-- The run state RUN (R34). Unloaded is the state before the first `load`. -/
inductive RunState where
  | unloaded | running | halted | faulted
  deriving DecidableEq, Repr

/-- The seven fault kinds of the hardware (60_exceptions.md R210). FAULT_KIND = None is `Option.none`. -/
inductive FaultKind where
  | unknownInstruction | illegalInstruction | illegalCondition | immediateValue
  | segmentText | segmentData | segmentStack
  deriving DecidableEq, Repr

/-- A word array as sparse data: (word index, word), indexes strictly rising, no entry equal to what an unlisted
index reads as (`Memory.unlisted` in Machine/Ops.lean). The cell is a WORD: no byte of this hardware has an address
(20_memory.md R52, R57, R58; DEDUCED, safe: notes/assumptions/1.md). -/
abbrev Memory := List (Nat × Word)

/-- Where the model stops because the spec gives the access no meaning. A fault OF THE HARDWARE is not one of
these: its entry is a next state (60_exceptions.md R220). -/
inductive Fault where
  /-- Raised by `memRead` and `memWrite` at an index `>=u data_size`, where the spec leaves MemRead and MemWrite
  undefined (20_memory.md R56). Only the write of a push can meet it, and only where the old sp lay outside the
  data array while the new sp is inside the stack window: a state no run reaches (10_state.md R39). Safe. -/
  | dataIndex
  deriving DecidableEq, Repr

/-- Requests the model turns down without a transition. -/
inductive Refusal where
  /-- Answered by an arm of `exec` whose instruction has no meaning yet; no arm answers it now. Safe. -/
  | notModelled (mnemonic : String)
  /-- Raised by `step` and `run` before the first `load` (70_reset_and_hazards.md R252). Safe. -/
  | unloaded
  /-- Raised by `load` beyond TEXT_CAP or DATA_CAP (R254 duty 1, 20_memory.md R67). Safe. -/
  | beyondCapacity
  /-- Raised by `load` where an array has not as many words as its stated size (R254 duty 2). Safe. -/
  | imageLength
  /-- Raised by an observation port asked for a text or data word outside the array (R261). Safe. -/
  | portIndex
  deriving DecidableEq, Repr

/-- The complete architectural state (R20). -/
structure State where
  /-- `x[0] .. x[15]` (R21) -/
  regs : Vector Word 16
  /-- `pc`, a word index into text (R25) -/
  pc : Word
  /-- `cc` (R29) -/
  cc : CondCode
  /-- `sp`, a word index into data, the first free slot (R31) -/
  sp : Word
  /-- `text_size` (R28) -/
  textSize : Word
  /-- `data_size` (R28) -/
  dataSize : Word
  /-- `data_end` (R28) -/
  dataEnd : Word
  /-- `text[0 .. text_size)` (R33) -/
  text : Memory
  /-- `data[0 .. data_size)` (R32) -/
  data : Memory
  /-- `RUN` (R34) -/
  run : RunState
  /-- `FAULT_KIND`, none while no fault has occurred in this run (R35) -/
  faultKind : Option FaultKind
  /-- `FAULT_ADDR` (R35), unspecified while `faultKind` is none -/
  faultAddr : Word
  deriving DecidableEq, Repr

/-- The machine right after reset. Reset is `load` (70_reset_and_hazards.md R250); this is the state it leaves for
the program of no words, so every field is R40's: x = 0, pc = 0, cc Undefined, sp = data_size -32 1, RUN Running,
FAULT_KIND None. DESIGN CHOICE, unsafe: the three sizes, which the spec leaves to each `load`, are 0
(notes/assumptions/3.md), and FAULT_ADDR, which it leaves unspecified, is 0 (notes/assumptions/4.md). -/
def State.reset : State where
  regs := Vector.replicate 16 0
  pc := 0
  cc := .undefined
  sp := 0xFFFFFFFF#32
  textSize := 0
  dataSize := 0
  dataEnd := 0
  text := []
  data := []
  run := .running
  faultKind := none
  faultAddr := 0

end Sys2Proof.Machine
end

