-- ==== Sys2Proof/Machine/Ops.lean ====
section
/-! DEFINITION. The named operations over memory and registers, taking a fault, the bounds checks, the stack
primitives and the fetch (20_memory.md, 40_cycle_and_operands.md, 60_exceptions.md). -/

namespace Sys2Proof.Machine

/-- What one step of the machine answers. -/
abbrev Result := Host.Outcome State Fault Refusal

/-- A part of an instruction: it goes on with a value, or the instruction ends there with an answer. -/
abbrev Phase (α : Type) := Except Result α

/-- A handler that reached its end answers its state as the next one. -/
def finish : Phase State → Result
  | .ok s => .next s
  | .error r => r

/-! ## Word arrays -/

/-- What an index that is not listed reads as: the word 0. `load` names every word of its arrays
(70_reset_and_hazards.md R251), so this is how the list writes a zero word and not a value for an unnamed word.
DESIGN CHOICE, unsafe for a state that no `load` made: notes/assumptions/2.md. -/
def Memory.unlisted : Word := 0

/-- The word at an index. -/
def Memory.read : Memory → Nat → Word
  | [], _ => Memory.unlisted
  | (b, w) :: m, a => if a = b then w else Memory.read m a

/-- Take every entry of an index out. -/
def Memory.erase : Memory → Nat → Memory
  | [], _ => []
  | (b, w) :: m, a => if a = b then Memory.erase m a else (b, w) :: Memory.erase m a

/-- Put an entry in before the first entry of a higher index. -/
def Memory.insert : Memory → Nat → Word → Memory
  | [], a, v => [(a, v)]
  | (b, w) :: m, a, v => if a < b then (a, v) :: (b, w) :: m else (b, w) :: Memory.insert m a v

/-- Set the word at an index and change no other (20_memory.md R56), in canonical form. -/
def Memory.write (m : Memory) (a : Nat) (v : Word) : Memory :=
  if v = Memory.unlisted then m.erase a else (m.erase a).insert a v

/-- The array of the words of a list, the first at index `a`. -/
def Memory.ofWordsAt : Nat → List Word → Memory
  | _, [] => []
  | a, w :: ws => if w = Memory.unlisted then Memory.ofWordsAt (a + 1) ws else (a, w) :: Memory.ofWordsAt (a + 1) ws

/-- The array of the words of a list, from index 0 (20_memory.md R65). -/
def Memory.ofWords (ws : List Word) : Memory := Memory.ofWordsAt 0 ws

/-- Canonical from index `lo` up, with every index below `size`. -/
def Memory.wfFrom (size : Nat) : Nat → Memory → Bool
  | _, [] => true
  | lo, (a, w) :: m => decide (lo ≤ a) && decide (a < size) && decide (w ≠ Memory.unlisted) && Memory.wfFrom size (a + 1) m

/-- The canonical form of an array of `size` words: indexes strictly rising and below `size`, no entry equal to
what an unlisted index reads as. Equal arrays are equal lists. -/
def Memory.wf (size : Nat) (m : Memory) : Bool := Memory.wfFrom size 0 m

/-! ## Registers -/

/-- Read `x[r]` (10_state.md R21); reading any of the 16 is always legal (R24). -/
def State.reg (s : State) (r : RegId) : Word := s.regs[r.toNat]'r.isLt

/-- `x[r] <- v`. No register is hardwired (10_state.md R22). -/
def State.setReg (s : State) (r : RegId) (v : Word) : State := { s with regs := s.regs.set r.toNat v r.isLt }

/-- `pc <- target`. -/
def State.setPc (s : State) (target : Word) : State := { s with pc := target }

/-- `cc <- c`. -/
def State.setCc (s : State) (c : CondCode) : State := { s with cc := c }

/-- `sp <- v`. -/
def State.setSp (s : State) (v : Word) : State := { s with sp := v }

/-- `RUN <- r`. -/
def State.setRun (s : State) (r : RunState) : State := { s with run := r }

/-- The data word at an index; inside `data[0 .. data_size)` this is `data[a]` (10_state.md R32). -/
def State.dataWord (s : State) (a : Word) : Word := s.data.read a.toNat

/-- The instruction word at an index; inside `text[0 .. text_size)` this is `text[a]` (10_state.md R33). -/
def State.textWord (s : State) (a : Word) : Word := s.text.read a.toNat

/-- `data[a] <- v`, and no other cell (20_memory.md R56). -/
def State.setData (s : State) (a v : Word) : State := { s with data := s.data.write a.toNat v }

/-- `ia`, the address of the instruction being executed: `pc -32 1` while its handler runs
(40_cycle_and_operands.md R122). -/
def State.ia (s : State) : Word := s.pc - 1#32

/-! ## Taking a fault

The whole entry of a fault (60_exceptions.md R220). There is no return from one (R222): only `load` leaves Faulted. -/

/-- The state a fault leaves: FAULT_KIND, FAULT_ADDR and RUN are written and nothing else; what the instruction
has written before stays written (40_cycle_and_operands.md R139). -/
def State.raised (s : State) (kind : FaultKind) (addr : Word) : State :=
  { s with faultKind := some kind, faultAddr := addr, run := .faulted }

/-- `raise kind(addr)` (R220): the instruction stops here, in the Faulted state. -/
def raiseAt {α : Type} (kind : FaultKind) (addr : Word) (s : State) : Phase α :=
  .error (.next (s.raised kind addr))

/-- `raise kind(ia)`: every fault raised by a handler records `ia` (60_exceptions.md R218; D12, UNVERIFIED, unsafe:
notes/assumptions/13.md). -/
def raise {α : Type} (kind : FaultKind) (s : State) : Phase α := raiseAt kind s.ia s

/-! ## Memory primitives -/

/-- `MemRead(a, 1)`, defined only for `a <u data_size` (20_memory.md R56). -/
def memRead (a : Word) (s : State) : Phase Word :=
  if a < s.dataSize then .ok (s.dataWord a) else .error (.fault .dataIndex)

/-- `MemWrite(a, 1, v)`, defined only for `a <u data_size` (20_memory.md R56). -/
def memWrite (a v : Word) (s : State) : Phase State :=
  if a < s.dataSize then .ok (s.setData a v) else .error (.fault .dataIndex)

/-! ## The bounds checker -/

/-- Data check: Segment-Data if `a >=u data_size` (40_cycle_and_operands.md R128). -/
def checkData (a : Word) (s : State) : Phase Unit :=
  if a < s.dataSize then .ok () else raise .segmentData s

/-- Whether a stack pointer lies in the stack window: `data_end <=u sp` and `sp <u data_size` (R129). -/
def State.inWindow (s : State) (sp : Word) : Bool := decide (s.dataEnd ≤ sp ∧ sp < s.dataSize)

/-- Stack check, made after sp has moved; sp keeps the changed value when it raises (R129). -/
def checkStack (s : State) : Phase Unit :=
  if s.inWindow s.sp then .ok () else raise .segmentStack s

/-- Branch-target check: Segment-Text if `a >=u text_size` (R130; kind and address are D14, UNVERIFIED, unsafe:
notes/assumptions/12.md). -/
def checkTextTarget (a : Word) (s : State) : Phase Unit :=
  if a < s.textSize then .ok () else raise .segmentText s

/-! ## The stack primitives -/

/-- `push(v)`: write at the old sp, and only if the check of the new one passes (40_cycle_and_operands.md R135; D9,
D10, UNVERIFIED, unsafe: notes/assumptions/9.md). -/
def push (v : Word) (s : State) : Phase State := do
  let a := s.sp
  let s := s.setSp (s.sp - 1#32)
  checkStack s
  memWrite a v s

/-- `pop()`: read at the new sp, once its check has passed; the popped cell keeps its contents
(40_cycle_and_operands.md R136). -/
def pop (s : State) : Phase (Word × State) := do
  let s := s.setSp (s.sp + 1#32)
  checkStack s
  let v ← memRead s.sp s
  return (v, s)

/-! ## The fetch -/

/-- SEGTEXT_REPORT as this spec sets it (00_scope.md R8; C2, D13, UNVERIFIED, unsafe: notes/assumptions/11.md). -/
def segTextReport : Config.SegTextReport := .pc

/-- `fetch_fault_addr` under a setting of SEGTEXT_REPORT (40_cycle_and_operands.md R121). -/
def fetchFaultAddr (report : Config.SegTextReport) (pc : Word) : Word :=
  match report with
  | .pc => pc
  | .pcMinus1 => pc - 1#32

/-- The fetch check, the read of `text[pc]` and the increment of pc (40_cycle_and_operands.md R120, R121). A failed
check leaves pc as it is. -/
def fetch (s : State) : Phase (Word × State) :=
  if s.pc < s.textSize then .ok (s.textWord s.pc, s.setPc (s.pc + 1#32))
  else raiseAt .segmentText (fetchFaultAddr segTextReport s.pc) s

/-- Place a word where the next step fetches, as the `load` of a program would have (notes/assumptions/5.md): the
word at `text[pc]`, `text_size` above pc, RUN Running and no fault on record. A pc of 2^32 - 1 is below no
text_size (10_state.md R27); there the word is placed at the entry point 0. -/
def State.placeFetchWord (s : State) (w : Word) : State :=
  let at_ := if s.pc = 0xFFFFFFFF#32 then 0#32 else s.pc
  { s with
    pc := at_
    textSize := if at_ < s.textSize then s.textSize else at_ + 1#32
    text := s.text.write at_.toNat w
    run := .running
    faultKind := none }

end Sys2Proof.Machine
end

