-- ==== Sys2Proof/Machine/Flags.lean ====
section
/-! DEFINITION. The sign classifier and the condition evaluator (40_cycle_and_operands.md R133, R134). -/

namespace Sys2Proof.Machine

/-- The condition code of a word's sign (R133). -/
def classify (v : Word) : CondCode :=
  if v = 0#32 then .zero else if v.getLsbD 31 = false then .positive else .negative

/-- `set_cc(v)` (R133). -/
def setCcFrom (v : Word) (s : State) : State := s.setCc (classify v)

/-- The branch condition a 4-bit field names; 7..15 name none (30_encoding.md R90; the numbers are D4, UNVERIFIED,
unsafe: notes/assumptions/8.md). -/
def condOfField (c : BitVec 4) : Option Cond :=
  match c.toNat with
  | 0 => some .nc
  | 1 => some .eq
  | 2 => some .ne
  | 3 => some .gt
  | 4 => some .ge
  | 5 => some .lt
  | 6 => some .le
  | _ => none

/-- When a condition is true (R134). NE, GE and LE are true of Undefined: "a deliberate looseness". -/
def condHolds : Cond → CondCode → Bool
  | .nc, _ => true
  | .eq, cc => cc == .zero
  | .ne, cc => cc != .zero
  | .gt, cc => cc == .positive
  | .ge, cc => cc != .negative
  | .lt, cc => cc == .negative
  | .le, cc => cc != .positive

/-- `check_condition(c)`: the condition's truth, or Illegal-Condition (R134). -/
def checkCondition (c : BitVec 4) (s : State) : Phase Bool :=
  match condOfField c with
  | some k => .ok (condHolds k s.cc)
  | none => raise .illegalCondition s

end Sys2Proof.Machine
end

