-- ==== Sys2Proof/Machine/Operands.lean ====
section
/-! DEFINITION. The operand resolver (40_cycle_and_operands.md R126, R127) and the immediate check (R131), over the
three operand forms of 30_encoding.md R85. -/

namespace Sys2Proof.Machine

/-- An operand that has an address (R87, R88). -/
inductive AddrOperand where
  | absolute (address : Word)
  | indexed (base : RegId) (offset : Word)
  deriving DecidableEq, Repr

/-- An operand in one of the three modes (R85). -/
inductive Operand where
  | immediate (value : Word)
  | address (o : AddrOperand)
  deriving DecidableEq, Repr

/-- `resolve_address(I)`: the effective address, modulo 2^32 and unchecked (R126). Its precondition `I.imm = 0` is
the type of its argument. -/
def resolveAddress (o : AddrOperand) (s : State) : Word :=
  match o with
  | .absolute a => a
  | .indexed b off => s.reg b + off

/-- `resolve_value(I)`: the literal, or the data word at the checked effective address (R127). -/
def resolveValue (o : Operand) (s : State) : Phase Word :=
  match o with
  | .immediate v => .ok v
  | .address ao => do
    let a := resolveAddress ao s
    checkData a s
    memRead a s

/-- `check_immediate(I)`: Immediate-Value if `imm = 1` (R131); what passes is an operand with an address. -/
def checkImmediate (o : Operand) (s : State) : Phase AddrOperand :=
  match o with
  | .immediate _ => raise .immediateValue s
  | .address ao => .ok ao

end Sys2Proof.Machine
end

