-- ==== Sys2Proof/Machine/AddSub.lean ====
section
/-! DEFINITION. ADD and SUB (42_add_sub.md). Sums and differences wrap modulo 2^32 (R132; D7, UNVERIFIED, unsafe:
notes/assumptions/7.md). -/

namespace Sys2Proof.Machine

/-- `alu_add(a, b) = a +32 b` (40_cycle_and_operands.md R132). -/
def aluAdd (a b : Word) : Word := a + b

/-- `alu_sub(a, b) = a -32 b` (40_cycle_and_operands.md R132). -/
def aluSub (a b : Word) : Word := a - b

/-- What ADD and SUB share: register op operand, then the register, then cc from the new value (R170, R171). -/
def arith (op : Word → Word → Word) (rd : RegId) (o : Operand) (s : State) : Result := finish do
  let v ← resolveValue o s
  let r := op (s.reg rd) v
  return setCcFrom r (s.setReg rd r)

/-- `ADD rN, #v` (R170). -/
def execAddImm (rd : RegId) (value : Word) (s : State) : Result := arith aluAdd rd (.immediate value) s

/-- `ADD rN, @a` (R170). -/
def execAddAbs (rd : RegId) (address : Word) (s : State) : Result :=
  arith aluAdd rd (.address (.absolute address)) s

/-- `ADD rN, +o[rB]` (R170). -/
def execAddIdx (rd base : RegId) (offset : Word) (s : State) : Result :=
  arith aluAdd rd (.address (.indexed base offset)) s

/-- `SUB rN, #v` (R171). -/
def execSubImm (rd : RegId) (value : Word) (s : State) : Result := arith aluSub rd (.immediate value) s

/-- `SUB rN, @a` (R171). -/
def execSubAbs (rd : RegId) (address : Word) (s : State) : Result :=
  arith aluSub rd (.address (.absolute address)) s

/-- `SUB rN, +o[rB]` (R171). -/
def execSubIdx (rd base : RegId) (offset : Word) (s : State) : Result :=
  arith aluSub rd (.address (.indexed base offset)) s

end Sys2Proof.Machine
end

