-- ==== Sys2Proof/Machine/BranchCallRet.lean ====
section
/-! DEFINITION. BRANCH, CALL and RET (43_branch_call_ret.md). -/

namespace Sys2Proof.Machine

/-- `BRANCH(I)`: the target is examined only if the condition holds (R180). -/
def branchTo (cond : BitVec 4) (o : Operand) (s : State) : Result := finish do
  let ao ← checkImmediate o s
  if ← checkCondition cond s then
    let a := resolveAddress ao s
    checkTextTarget a s
    return s.setPc a
  else
    return s

/-- `CALL(I)`: the target is not validated here; the next fetch check validates it (R181). -/
def callTo (cond : BitVec 4) (o : Operand) (s : State) : Result := finish do
  let ao ← checkImmediate o s
  if ← checkCondition cond s then
    let a := resolveAddress ao s
    let s ← push s.pc s
    return s.setPc a
  else
    return s

/-- `RET(I)`: the 32 bits of the popped word become pc (R182, 40_cycle_and_operands.md R138). -/
def retPop (s : State) : Result := finish do
  let (t, s) ← pop s
  return s.setPc t

/-- BRANCH with `imm = 1`: Immediate-Value (R131, R180). -/
def execBranchImm (cond : BitVec 4) (value : Word) (s : State) : Result := branchTo cond (.immediate value) s

/-- `BRANCH cc, @a` (R180). -/
def execBranchAbs (cond : BitVec 4) (address : Word) (s : State) : Result :=
  branchTo cond (.address (.absolute address)) s

/-- `BRANCH cc, +o[rB]` (R180). -/
def execBranchIdx (cond : BitVec 4) (base : RegId) (offset : Word) (s : State) : Result :=
  branchTo cond (.address (.indexed base offset)) s

/-- CALL with `imm = 1`: Immediate-Value (R131, R181). -/
def execCallImm (cond : BitVec 4) (value : Word) (s : State) : Result := callTo cond (.immediate value) s

/-- `CALL cc, @a` (R181). -/
def execCallAbs (cond : BitVec 4) (address : Word) (s : State) : Result :=
  callTo cond (.address (.absolute address)) s

/-- `CALL cc, +o[rB]` (R181). -/
def execCallIdx (cond : BitVec 4) (base : RegId) (offset : Word) (s : State) : Result :=
  callTo cond (.address (.indexed base offset)) s

/-- `RET` (R182). -/
def execRet (s : State) : Result := retPop s

end Sys2Proof.Machine
end

