-- ==== Sys2Proof/Machine/LoadStore.lean ====
section
/-! DEFINITION. LOAD and STORE (41_load_store.md). A handler runs on a state whose pc is already ia + 1 (R122). -/

namespace Sys2Proof.Machine

/-- `LOAD(I)` (R160). -/
def loadValue (rd : RegId) (o : Operand) (s : State) : Result := finish do
  let v ← resolveValue o s
  return setCcFrom v (s.setReg rd v)

/-- `STORE(I)` (R161). -/
def storeWord (rs : RegId) (o : Operand) (s : State) : Result := finish do
  let ao ← checkImmediate o s
  let a := resolveAddress ao s
  checkData a s
  memWrite a (s.reg rs) s

/-- `LOAD rN, #v` (R160). -/
def execLoadImm (rd : RegId) (value : Word) (s : State) : Result := loadValue rd (.immediate value) s

/-- `LOAD rN, @a` (R160). -/
def execLoadAbs (rd : RegId) (address : Word) (s : State) : Result := loadValue rd (.address (.absolute address)) s

/-- `LOAD rN, +o[rB]` (R160). -/
def execLoadIdx (rd base : RegId) (offset : Word) (s : State) : Result :=
  loadValue rd (.address (.indexed base offset)) s

/-- STORE with `imm = 1`: Immediate-Value (R131, R161). -/
def execStoreImm (rs : RegId) (value : Word) (s : State) : Result := storeWord rs (.immediate value) s

/-- `STORE rN, @a` (R161). -/
def execStoreAbs (rs : RegId) (address : Word) (s : State) : Result := storeWord rs (.address (.absolute address)) s

/-- `STORE rN, +o[rB]` (R161). -/
def execStoreIdx (rs base : RegId) (offset : Word) (s : State) : Result :=
  storeWord rs (.address (.indexed base offset)) s

end Sys2Proof.Machine
end

