-- ==== Sys2Proof/Machine/PushPop.lean ====
section
/-! DEFINITION. PUSH and POP (44_push_pop.md). -/

namespace Sys2Proof.Machine

/-- `PUSH(I)`: the operand is read before sp moves (R190). -/
def pushValue (o : Operand) (s : State) : Result := finish do
  let v ← resolveValue o s
  push v s

/-- `POP(I)`: the destination is checked before the pop (R191; D11, UNVERIFIED, unsafe: notes/assumptions/10.md). -/
def popTo (o : Operand) (s : State) : Result := finish do
  let ao ← checkImmediate o s
  let a := resolveAddress ao s
  checkData a s
  let (v, s) ← pop s
  memWrite a v s

/-- `PUSH #v` (R190). -/
def execPushImm (value : Word) (s : State) : Result := pushValue (.immediate value) s

/-- `PUSH @a` (R190). -/
def execPushAbs (address : Word) (s : State) : Result := pushValue (.address (.absolute address)) s

/-- `PUSH +o[rB]` (R190). -/
def execPushIdx (base : RegId) (offset : Word) (s : State) : Result :=
  pushValue (.address (.indexed base offset)) s

/-- POP with `imm = 1`: Immediate-Value (R131, R191). -/
def execPopImm (value : Word) (s : State) : Result := popTo (.immediate value) s

/-- `POP @a` (R191). -/
def execPopAbs (address : Word) (s : State) : Result := popTo (.address (.absolute address)) s

/-- `POP +o[rB]` (R191). -/
def execPopIdx (base : RegId) (offset : Word) (s : State) : Result := popTo (.address (.indexed base offset)) s

end Sys2Proof.Machine
end

