-- ==== Sys2Proof/Machine/System.lean ====
section
/-! DEFINITION. NOP, ILLOP, HALT and the unknown opcodes (45_nop_illop_halt.md). -/

namespace Sys2Proof.Machine

/-- `UNKNOWN(I)`: Unknown-Instruction (R203). -/
def raiseUnknown (s : State) : Result := finish (raise .unknownInstruction s)

/-- NOP: nothing but the cycle's increment of pc (R200). -/
def execNop (s : State) : Result := .next s

/-- ILLOP: Illegal-Instruction (R201). -/
def execIllop (s : State) : Result := finish (raise .illegalInstruction s)

/-- HALT: `RUN <- Halted` (R202). -/
def execHalt (s : State) : Result := .next (s.setRun .halted)

/-- op 12..15 (R203); the opcode's value changes nothing (60_exceptions.md R211). -/
def execUnknown12 (_op : BitVec 6) (s : State) : Result := raiseUnknown s

/-- op 16..31 (R203). -/
def execUnknown16 (_op : BitVec 6) (s : State) : Result := raiseUnknown s

/-- op 32..63 (R203). -/
def execUnknown32 (_op : BitVec 6) (s : State) : Result := raiseUnknown s

end Sys2Proof.Machine
end

