-- ==== Sys2Proof/Machine/Dispatch.lean ====
section
/-! DEFINITION. The dispatch (40_cycle_and_operands.md R123), one arm per constructor of Instr. It runs on the state
after the fetch, where pc is ia + 1 (R120, R122). -/

namespace Sys2Proof.Machine

def exec (i : Instr) (s : State) : Host.Outcome State Fault Refusal :=
  match i with
  | .illop => Sys2Proof.Machine.execIllop s
  | .nop => Sys2Proof.Machine.execNop s
  | .loadImm rd value => Sys2Proof.Machine.execLoadImm rd value s
  | .loadAbs rd address => Sys2Proof.Machine.execLoadAbs rd address s
  | .loadIdx rd base offset => Sys2Proof.Machine.execLoadIdx rd base offset s
  | .storeImm rs value => Sys2Proof.Machine.execStoreImm rs value s
  | .storeAbs rs address => Sys2Proof.Machine.execStoreAbs rs address s
  | .storeIdx rs base offset => Sys2Proof.Machine.execStoreIdx rs base offset s
  | .addImm rd value => Sys2Proof.Machine.execAddImm rd value s
  | .addAbs rd address => Sys2Proof.Machine.execAddAbs rd address s
  | .addIdx rd base offset => Sys2Proof.Machine.execAddIdx rd base offset s
  | .subImm rd value => Sys2Proof.Machine.execSubImm rd value s
  | .subAbs rd address => Sys2Proof.Machine.execSubAbs rd address s
  | .subIdx rd base offset => Sys2Proof.Machine.execSubIdx rd base offset s
  | .branchImm cond value => Sys2Proof.Machine.execBranchImm cond value s
  | .branchAbs cond address => Sys2Proof.Machine.execBranchAbs cond address s
  | .branchIdx cond base offset => Sys2Proof.Machine.execBranchIdx cond base offset s
  | .callImm cond value => Sys2Proof.Machine.execCallImm cond value s
  | .callAbs cond address => Sys2Proof.Machine.execCallAbs cond address s
  | .callIdx cond base offset => Sys2Proof.Machine.execCallIdx cond base offset s
  | .ret => Sys2Proof.Machine.execRet s
  | .pushImm value => Sys2Proof.Machine.execPushImm value s
  | .pushAbs address => Sys2Proof.Machine.execPushAbs address s
  | .pushIdx base offset => Sys2Proof.Machine.execPushIdx base offset s
  | .popImm value => Sys2Proof.Machine.execPopImm value s
  | .popAbs address => Sys2Proof.Machine.execPopAbs address s
  | .popIdx base offset => Sys2Proof.Machine.execPopIdx base offset s
  | .halt => Sys2Proof.Machine.execHalt s
  | .unknown12 op => Sys2Proof.Machine.execUnknown12 op s
  | .unknown16 op => Sys2Proof.Machine.execUnknown16 op s
  | .unknown32 op => Sys2Proof.Machine.execUnknown32 op s

end Sys2Proof.Machine
end

