-- ==== Sys2Proof/Machine/Cycle.lean ====
section
/-! DEFINITION. The fetch-decode-execute cycle and the answer to a `step` request (40_cycle_and_operands.md R120,
70_reset_and_hazards.md R252, R256). -/

namespace Sys2Proof.Machine

/-- One cycle from a Running state: fetch, decode, dispatch (R120). -/
def cycle (s : State) : Result :=
  match fetch s with
  | .ok (w, s') => exec (decode w) s'
  | .error r => r

/-- A `step` request: one cycle when Running; in Halted and Faulted no transition and no change (R256; D18, log
notes/assumptions/6.md); in Unloaded refused (R252). -/
def stepRequest (s : State) : Result :=
  match s.run with
  | .running => cycle s
  | .halted | .faulted => .next s
  | .unloaded => .refused .unloaded

end Sys2Proof.Machine
end

