-- ==== Sys2Proof/Machine/Step.lean ====
section
/-! DEFINITION. The step, and the placing of a word where the step fetches. -/

namespace Sys2Proof.Machine

/-- One `step` (40_cycle_and_operands.md R120, 70_reset_and_hazards.md R261). -/
def step (s : State) : Host.Outcome State Fault Refusal := stepRequest s

/-- The state in which the very next step fetches and runs the table row's word, as after the `load` of a program
that holds it (notes/assumptions/5.md). -/
def State.withFetchWord (s : State) (nbits w : Nat) : State := s.placeFetchWord (tableWord nbits w)

end Sys2Proof.Machine
end

