-- ==== Sys2Proof/Machine/HostOps.lean ====
section
/-! DEFINITION. What the host can do to the block (00_scope.md R7, 70_reset_and_hazards.md R261): `load`, which is
the reset, `step`, `run`, pause, and the observation ports (10_state.md R38). -/

namespace Sys2Proof.Machine

/-- The arguments of `load(text, text_size, data, data_size, data_end)` (R250). `data` names all of its words, those
of the stack window too (10_state.md R32; notes/assumptions/15.md). -/
structure Image where
  text : List Word
  textSize : Word
  data : List Word
  dataSize : Word
  dataEnd : Word
  deriving DecidableEq, Repr

/-- The state `load` leaves, field by field (R251). FAULT_ADDR is unspecified while FAULT_KIND is None (R40), so its
value is an argument: any word (notes/assumptions/4.md). -/
def Image.loaded (img : Image) (faultAddr : Word) : State where
  regs := Vector.replicate 16 0
  pc := 0
  cc := .undefined
  sp := img.dataSize - 1#32
  textSize := img.textSize
  dataSize := img.dataSize
  dataEnd := img.dataEnd
  text := Memory.ofWords img.text
  data := Memory.ofWords img.data
  run := .running
  faultKind := none
  faultAddr := faultAddr

/-- `load`, from any run state; nothing of the state before it survives (R253). A load beyond the capacities, or
with an array of another length than its size, has no defined meaning and is refused (R254, U9;
notes/assumptions/14.md). It checks nothing else: not data_end, not the initial sp (R251). -/
def loadImage (cap : Config.Capacity) (img : Image) (faultAddr : Word) (_before : State) : Result :=
  if cap.textCap < img.textSize ∨ cap.dataCap < img.dataSize then .refused .beyondCapacity
  else if img.text.length ≠ img.textSize.toNat ∨ img.data.length ≠ img.dataSize.toNat then .refused .imageLength
  else .next (img.loaded faultAddr)

/-- What a `step` or `run` request delivers to the host (00_scope.md R12). -/
inductive StepResult where
  | continue
  | halted
  | fault (kind : FaultKind) (addr : Word)
  deriving DecidableEq, Repr

/-- The result that goes with the state a request left (40_cycle_and_operands.md R124): a terminal state delivers
the run's final result however often it is asked for (70_reset_and_hazards.md R256; D18, notes/assumptions/6.md).
None before the first load. For a `run` that its hook stopped while Running the spec lists no result (R261): here it
delivers Continue, as its last step did. DESIGN CHOICE, unsafe: notes/assumptions/24.md. -/
def State.result? (s : State) : Option StepResult :=
  match s.run with
  | .unloaded => none
  | .running => some .continue
  | .halted => some .halted
  | .faulted => s.faultKind.map fun k => .fault k s.faultAddr

/-- `run`, stopped by its hook after at most so many steps (40_cycle_and_operands.md R125): `step` repeated while
RUN is Running. The hardware has no step limit (R259): a run that is stopped while Running is left as its last step
left it (N16), and no number of steps is an outcome of the machine (notes/assumptions/19.md). -/
def runFor : Nat → State → Result
  | 0, s =>
    match s.run with
    | .unloaded => .refused .unloaded
    | _ => .next s
  | n + 1, s =>
    match step s with
    | .next t => runFor n t
    | r => r

/-- What the host asks the block to do (R261). -/
inductive HostRequest where
  | load (cap : Config.Capacity) (img : Image) (faultAddr : Word)
  | step
  | run (steps : Nat)
  | pause
  deriving DecidableEq, Repr

/-- The effect of a host's request on the machine (R261). A pause has none (60_exceptions.md R229). -/
def serve (q : HostRequest) (s : State) : Result :=
  match q with
  | .load cap img faultAddr => loadImage cap img faultAddr s
  | .step => step s
  | .run n => runFor n s
  | .pause => .next s

/-- The observation ports (10_state.md R38). -/
inductive Port where
  | reg (r : RegId)
  | pc | cc | sp
  | textSize | dataSize | dataEnd
  | text (a : Word)
  | data (a : Word)
  | run | faultKind | faultAddr
  deriving DecidableEq, Repr

/-- What a port shows. -/
inductive PortValue where
  | word (w : Word)
  | code (n : Nat)
  | runState (r : RunState)
  deriving DecidableEq, Repr

/-- The number of a condition code on its port (10_state.md R30; D16, notes/assumptions/22.md). -/
def CondCode.code : CondCode → Nat
  | .undefined => 0
  | .zero => 1
  | .positive => 2
  | .negative => 3

/-- The number of a fault kind on its port, 0 for None (60_exceptions.md R210; D15, notes/assumptions/22.md). -/
def faultCode : Option FaultKind → Nat
  | none => 0
  | some .unknownInstruction => 1
  | some .illegalInstruction => 2
  | some .illegalCondition => 3
  | some .immediateValue => 4
  | some .segmentText => 5
  | some .segmentData => 6
  | some .segmentStack => 7

/-- Read a port, between instructions and without side effect (10_state.md R38). A text or data index outside the
array is outside the spec and refused (70_reset_and_hazards.md R261; U17). -/
def readPort (p : Port) (s : State) : Except Refusal PortValue :=
  match p with
  | .reg r => .ok (.word (s.reg r))
  | .pc => .ok (.word s.pc)
  | .cc => .ok (.code s.cc.code)
  | .sp => .ok (.word s.sp)
  | .textSize => .ok (.word s.textSize)
  | .dataSize => .ok (.word s.dataSize)
  | .dataEnd => .ok (.word s.dataEnd)
  | .text a => if a < s.textSize then .ok (.word (s.textWord a)) else .error .portIndex
  | .data a => if a < s.dataSize then .ok (.word (s.dataWord a)) else .error .portIndex
  | .run => .ok (.runState s.run)
  | .faultKind => .ok (.code (faultCode s.faultKind))
  | .faultAddr => .ok (.word s.faultAddr)

end Sys2Proof.Machine
end

