-- ==== Sys2Proof/Safety.lean ====
section
/-! DEFINITION. What claims speak of: a sound state, an instruction that completes, and the parts of the state an
instruction leaves alone. -/

namespace Sys2Proof.Safety

open Sys2Proof.Machine

/-- What holds of every state that a `load` and steps reach: both word arrays are in canonical form; while the
machine has not faulted, sp is where `load` put it or inside the stack window (10_state.md R39 c); FAULT_KIND is
None in Running and Halted and a kind in Faulted (R35, R39 b). Nothing is said of Unloaded (R40). -/
structure Sound (s : State) : Prop where
  text_wf : s.text.wf s.textSize.toNat = true
  data_wf : s.data.wf s.dataSize.toNat = true
  stack : s.run = .running ∨ s.run = .halted → s.sp = s.dataSize - 1#32 ∨ s.inWindow s.sp = true
  no_fault : s.run = .running ∨ s.run = .halted → s.faultKind = none
  fault : s.run = .faulted → s.faultKind.isSome = true

/-- Halted and Faulted are the terminal run states (10_state.md R34). -/
abbrev Terminal (s : State) : Prop := s.run = .halted ∨ s.run = .faulted

/-- An instruction completed: the machine goes on Running (00_scope.md R12, Continue). -/
def Completes (r : Result) (t : State) : Prop := r = .next t ∧ t.run = .running

/-- Every general register reads as before. -/
def SameRegs (s t : State) : Prop := ∀ r, t.reg r = s.reg r

/-- Every general register but one reads as before. -/
def SameRegsBut (rd : RegId) (s t : State) : Prop := ∀ r, r ≠ rd → t.reg r = s.reg r

/-- Every data word reads as before. -/
def SameData (s t : State) : Prop := ∀ a, t.dataWord a = s.dataWord a

/-- Every data word but the one at an address reads as before. -/
def SameDataBut (at_ : Word) (s t : State) : Prop := ∀ a, a ≠ at_ → t.dataWord a = s.dataWord a

/-- The text and the three size registers are as before (10_state.md R28, R33). -/
def SameLimits (s t : State) : Prop :=
  (∀ a, t.textWord a = s.textWord a) ∧ t.textSize = s.textSize ∧ t.dataSize = s.dataSize ∧ t.dataEnd = s.dataEnd

/-- RUN and the fault record are as before. -/
def SameRun (s t : State) : Prop := t.run = s.run ∧ t.faultKind = s.faultKind ∧ t.faultAddr = s.faultAddr

/-- RUN and the fault record are those of a fault (60_exceptions.md R220). -/
abbrev Raised (kind : FaultKind) (addr : Word) (t : State) : Prop :=
  t.run = .faulted ∧ t.faultKind = some kind ∧ t.faultAddr = addr

/-- The sign a condition code tells of a word (10_state.md R29). -/
def SignCode (v : Word) (cc : CondCode) : Prop :=
  (v = 0 → cc = .zero) ∧ (0 < v.toInt → cc = .positive) ∧ (v.toInt < 0 → cc = .negative)

/-- The truth of a branch-condition field, 7..15 never (40_cycle_and_operands.md R134). -/
abbrev Holds (c : BitVec 4) (cc : CondCode) : Prop :=
  c = 0 ∨ (c = 1 ∧ cc = .zero) ∨ (c = 2 ∧ cc ≠ .zero) ∨ (c = 3 ∧ cc = .positive) ∨ (c = 4 ∧ cc ≠ .negative) ∨
    (c = 5 ∧ cc = .negative) ∨ (c = 6 ∧ cc ≠ .positive)

/-! ## The effects of the instructions that complete -/

/-- LOAD, ADD, SUB: one register and cc are written (10_state.md R23, R29). -/
def WritesRegister (rd : RegId) (v : Word) (s t : State) : Prop :=
  t.reg rd = v ∧ SignCode v t.cc ∧ SameRegsBut rd s t ∧ t.pc = s.pc ∧ t.sp = s.sp ∧
    SameData s t ∧ SameLimits s t ∧ SameRun s t

/-- STORE: one data word is written. -/
def WritesData (a v : Word) (s t : State) : Prop :=
  t.dataWord a = v ∧ SameDataBut a s t ∧ SameRegs s t ∧ t.cc = s.cc ∧ t.pc = s.pc ∧ t.sp = s.sp ∧
    SameLimits s t ∧ SameRun s t

/-- A push that completes, pc left to the instruction (40_cycle_and_operands.md R135). -/
def PushesWord (v : Word) (s t : State) : Prop :=
  t.sp = s.sp - 1#32 ∧ t.dataWord s.sp = v ∧ SameDataBut s.sp s t ∧ SameRegs s t ∧ t.cc = s.cc ∧
    SameLimits s t ∧ SameRun s t

/-- The states in which a push completes: the new sp lies in the stack window and the old one in the data array. -/
abbrev CanPush (s : State) : Prop := s.dataEnd ≤ s.sp - 1#32 ∧ s.sp - 1#32 < s.dataSize ∧ s.sp < s.dataSize

/-- The states in which a pop completes: the new sp lies in the stack window. -/
abbrev CanPop (s : State) : Prop := s.dataEnd ≤ s.sp + 1#32 ∧ s.sp + 1#32 < s.dataSize

/-- Push a list of words, the first one first. -/
def pushAll : List Word → State → Phase State
  | [], s => .ok s
  | v :: vs, s => do
    let s ← push v s
    pushAll vs s

/-- Pop so many words, the first popped first. -/
def popAll : Nat → State → Phase (List Word × State)
  | 0, s => .ok ([], s)
  | n + 1, s => do
    let (v, s) ← pop s
    let (vs, s) ← popAll n s
    return (v :: vs, s)

/-! ## What an instruction can touch -/

/-- The register an instruction writes (10_state.md R23). -/
def destReg : Instr → Option RegId
  | .loadImm rd _ | .loadAbs rd _ | .loadIdx rd _ _ => some rd
  | .addImm rd _ | .addAbs rd _ | .addIdx rd _ _ => some rd
  | .subImm rd _ | .subAbs rd _ | .subIdx rd _ _ => some rd
  | _ => none

/-- The data word an instruction may write (20_memory.md R60). -/
def storedAddress (i : Instr) (s : State) : Option Word :=
  match i with
  | .storeAbs _ a | .popAbs a => some a
  | .storeIdx _ b o | .popIdx b o => some (s.reg b + o)
  | .pushImm _ | .pushAbs _ | .pushIdx _ _ | .callAbs _ _ | .callIdx _ _ _ => some s.sp
  | _ => none

/-- The operand or destination address that the data check is applied to (40_cycle_and_operands.md R128). -/
def dataOperand (i : Instr) (s : State) : Option Word :=
  match i with
  | .loadAbs _ a | .addAbs _ a | .subAbs _ a | .storeAbs _ a | .pushAbs a | .popAbs a => some a
  | .loadIdx _ b o | .addIdx _ b o | .subIdx _ b o | .storeIdx _ b o => some (s.reg b + o)
  | .pushIdx b o | .popIdx b o => some (s.reg b + o)
  | _ => none

/-- The sp that the stack check is applied to, for the instructions whose earlier checks pass
(40_cycle_and_operands.md R129, 60_exceptions.md R219). -/
def adjustedSp (i : Instr) (s : State) : Option Word :=
  match i with
  | .pushImm _ => some (s.sp - 1#32)
  | .pushAbs a => if a < s.dataSize then some (s.sp - 1#32) else none
  | .pushIdx b o => if s.reg b + o < s.dataSize then some (s.sp - 1#32) else none
  | .callAbs c _ | .callIdx c _ _ => if (condOfField c).any (condHolds · s.cc) then some (s.sp - 1#32) else none
  | .popAbs a => if a < s.dataSize then some (s.sp + 1#32) else none
  | .popIdx b o => if s.reg b + o < s.dataSize then some (s.sp + 1#32) else none
  | .ret => some (s.sp + 1#32)
  | _ => none

/-- Whether an instruction can set pc to a target (10_state.md R26). -/
def transfers : Instr → Bool
  | .branchAbs _ _ | .branchIdx _ _ _ | .callAbs _ _ | .callIdx _ _ _ | .ret => true
  | _ => false

/-- The four forms that take no literal, with one (40_cycle_and_operands.md R131). -/
def illegalForm : Instr → Bool
  | .storeImm _ _ | .branchImm _ _ | .callImm _ _ | .popImm _ => true
  | _ => false

/-- The faults an instruction can raise (60_exceptions.md R231), form by form. -/
def canRaise : Instr → List FaultKind
  | .illop => [.illegalInstruction]
  | .unknown12 _ | .unknown16 _ | .unknown32 _ => [.unknownInstruction]
  | .storeImm _ _ | .branchImm _ _ | .callImm _ _ | .popImm _ => [.immediateValue]
  | .loadAbs _ _ | .loadIdx _ _ _ | .addAbs _ _ | .addIdx _ _ _ | .subAbs _ _ | .subIdx _ _ _ => [.segmentData]
  | .storeAbs _ _ | .storeIdx _ _ _ => [.segmentData]
  | .branchAbs _ _ | .branchIdx _ _ _ => [.illegalCondition, .segmentText]
  | .callAbs _ _ | .callIdx _ _ _ => [.illegalCondition, .segmentStack]
  | .ret | .pushImm _ => [.segmentStack]
  | .pushAbs _ | .pushIdx _ _ | .popAbs _ | .popIdx _ _ => [.segmentData, .segmentStack]
  | .nop | .halt | .loadImm _ _ | .addImm _ _ | .subImm _ _ => []

/-- The bits of a word that its opcode consults (30_encoding.md R92): `imm` decides alone in the four forms that
take no literal. -/
def consultedMask (w : Word) : Word :=
  match (opField w).toNat with
  | 3 | 6 | 7 => if immField w then 0x0000007F#32 else 0xFFFFFFFF#32
  | 10 => if immField w then 0x0000007F#32 else 0xFFFFF0FF#32
  | _ => significantMask w

end Sys2Proof.Safety
end

