-- ==== Sys2Proof/Certificates/Slice0/Obligations.lean ====
section
/-! DEFINITION. The statements for the provers, one `def Obligations.<Name> : Prop` each, in the order of
OBLIGATIONS.json. A docstring says what the statement says, and names the decision of the spec it rests on. -/

open Sys2Proof Sys2Proof.Machine Sys2Proof.Safety

/-- For every well-formed instruction of every row, decode (encode i) = i: no operand value that an encoding admits
is lost. The bit layout is the spec's decision D2 to D5 (log 8). [derived: 30_encoding.md section 5 (canonical
encoding); 30_encoding.md section 2 (the decoder); 92_eei_decisions.md D2] -/
def Obligations.DecodeEncodeRoundTrip : Prop :=
  ∀ i : Instr, i.wf = true → decode (encode i) = i

/-- For all 2^32 words, encode (decode w) is w with every ignored bit written 0 (log 8, log 16). [derived:
30_encoding.md section 5 (canonical encoding); 30_encoding.md section 4, table of consulted fields;
92_eei_decisions.md D2, D27] -/
def Obligations.EncodeDecodeCanonical : Prop :=
  ∀ w : Word, encode (decode w) = canonicalWord w

/-- The decoder is total and every literal, address, offset and opcode it produces is within its encoding's range
(log 8). [derived: 30_encoding.md section 2 (the decoder); 30_encoding.md section 5; 92_eei_decisions.md D2, D5] -/
def Obligations.DecodedInstructionIsWellFormed : Prop :=
  ∀ w : Word, (decode w).wf = true

/-- If two words agree on the bits their opcode consults, executing either in any state gives the same answer. That
ignored fields may hold anything is the spec's decision D27 (log 16). [derived: 30_encoding.md section 4, table
of consulted fields; 92_eei_decisions.md D27; 95_test_vectors.md part 4, property 8] -/
def Obligations.UnconsultedBitsHaveNoEffect : Prop :=
  ∀ (w w' : Word) (s : State), w &&& consultedMask w = w' &&& consultedMask w' →
    exec (decode w) s = exec (decode w') s

/-- A few words of the spec's encoding examples, one or more of each family, decode to the instruction the spec
names (log 8). [derived: 30_encoding.md section 6, worked encodings; 95_test_vectors.md parts 1 and 2] -/
def Obligations.WorkedEncodingsDecode : Prop :=
  decode 0x00005042#32 = .loadImm 0 5 ∧ decode 0xFFFF2082#32 = .loadIdx 0 2 0xFFFFFFFF#32 ∧
    decode 0x80000342#32 = .loadImm 3 0xFFF80000#32 ∧ decode 0x00012083#32 = .storeIdx 0 2 1 ∧
    decode 0xFFFFB044#32 = .addImm 0 0xFFFFFFFB#32 ∧ decode 0x00001045#32 = .subImm 0 1 ∧
    decode 0x00002306#32 = .branchAbs 3 2 ∧ decode 0x00004007#32 = .callAbs 0 4 ∧
    decode 0x00000047#32 = .callImm 0 0 ∧ decode 0x00000008#32 = .ret ∧ decode 0x00001049#32 = .pushImm 1 ∧
    decode 0x0000100A#32 = .popAbs 1 ∧ decode 0x0000000B#32 = .halt ∧ decode 0x00000000#32 = .illop ∧
    decode 0x0000000C#32 = .unknown12 12

/-- When the machine is Running, pc is inside the text and the word there decodes to a well-formed instruction i,
step is exec of i on the state whose pc is one more. [derived: 40_cycle_and_operands.md section 1 (the cycle)] -/
def Obligations.StepRunsDecodedInstruction : Prop :=
  ∀ (s : State) (i : Instr), s.run = .running → s.pc < s.textSize → decode (s.textWord s.pc) = i → i.wf = true →
    step s = exec i (s.setPc (s.pc + 1#32))

/-- When Running with pc not below text_size, the step answers a Faulted state with kind Segment-Text, the address
SEGTEXT_REPORT selects (D13, log 11), and nothing else changed, pc included. [derived: 40_cycle_and_operands.md
section 1 (fetch check); 90_conflicts.md C2; 92_eei_decisions.md D13] -/
def Obligations.FetchPastTextRaisesSegmentText : Prop :=
  ∀ s : State, s.run = .running → s.textSize ≤ s.pc →
    ∃ t, step s = .next t ∧ Raised .segmentText (fetchFaultAddr segTextReport s.pc) t ∧ t.pc = s.pc ∧ t.sp = s.sp ∧
      t.cc = s.cc ∧ SameRegs s t ∧ SameData s t ∧ SameLimits s t

/-- In a terminal state a step and a run of any length change nothing. That the request answers the old result is
the spec's decision D18 (log 6). [derived: 70_reset_and_hazards.md section 3; 92_eei_decisions.md D18] -/
def Obligations.TerminalStatesAreFixed : Prop :=
  ∀ (s : State) (n : Nat), Terminal s → step s = .next s ∧ runFor n s = .next s

/-- In Unloaded, step and run are refused without a transition: the spec's decision D17 (log 18). [derived:
70_reset_and_hazards.md section 1; 92_eei_decisions.md D17] -/
def Obligations.UnloadedIsRefused : Prop :=
  ∀ (s : State) (n : Nat), s.run = .unloaded →
    step s = .refused .unloaded ∧ runFor n s = .refused .unloaded

/-- raise k(addr) ends its handler, whatever follows; the state it leaves is Faulted with that record, delivers
Fault(k, addr), and has every register, pc, sp, cc, data word, text word and size as before. [stated: R220] -/
def Obligations.RaiseWritesOnlyTheFaultRecord : Prop :=
  ∀ (k : FaultKind) (addr : Word) (s : State), ∃ t : State,
    (∀ rest : State → Phase State, finish (raiseAt k addr s >>= rest) = .next t) ∧
      Raised k addr t ∧ t.result? = some (.fault k addr) ∧ SameRegs s t ∧ t.pc = s.pc ∧ t.sp = s.sp ∧ t.cc = s.cc ∧
      SameData s t ∧ SameLimits s t

/-- exec of NOP is the state it is given; and a Running machine whose fetched word has op 1, whatever its other 26
bits, steps to the same state with pc one more, Continue. [stated: R200] -/
def Obligations.NopOnlyAdvancesPc : Prop :=
  (∀ s : State, exec .nop s = .next s) ∧
    ∀ s : State, s.run = .running → s.pc < s.textSize → opField (s.textWord s.pc) = 1 →
      step s = .next (s.setPc (s.pc + 1#32)) ∧ (s.setPc (s.pc + 1#32)).result? = some .continue

/-- exec of HALT sets RUN to Halted and nothing else; a Running machine whose fetched word has op 11 steps to Halted
with pc one past the HALT and all else unchanged, which delivers Halted and which no step or run leaves; and a
step from Running reaches Halted only so. That a run in Halted answers the same state, and is not turned away,
is the spec's decision D18 (log 6). [derived: 45_nop_illop_halt.md, HALT; 70_reset_and_hazards.md section 3;
92_eei_decisions.md D18] -/
def Obligations.HaltIsTheOnlySuccessfulTermination : Prop :=
  (∀ s : State, exec .halt s = .next (s.setRun .halted)) ∧
    (∀ s : State, s.run = .running → s.pc < s.textSize → opField (s.textWord s.pc) = 11 →
      step s = .next ((s.setPc (s.pc + 1#32)).setRun .halted) ∧
        ((s.setPc (s.pc + 1#32)).setRun .halted).result? = some .halted ∧
        ∀ n, runFor n ((s.setPc (s.pc + 1#32)).setRun .halted) = .next ((s.setPc (s.pc + 1#32)).setRun .halted)) ∧
    (∀ s t : State, s.run = .running → step s = .next t → t.run = .halted →
      s.pc < s.textSize ∧ opField (s.textWord s.pc) = 11)

/-- exec of ILLOP raises Illegal-Instruction at ia; a Running machine whose fetched word has op 0 steps to that
fault, recorded at the word's address, with pc one more and nothing else changed. [stated: R212] -/
def Obligations.IllopRaisesIllegalInstruction : Prop :=
  (∀ s : State, exec .illop s = .next (s.raised .illegalInstruction s.ia)) ∧
    ∀ s : State, s.run = .running → s.pc < s.textSize → opField (s.textWord s.pc) = 0 →
      step s = .next ((s.setPc (s.pc + 1#32)).raised .illegalInstruction s.pc)

/-- exec of each of the three unknown rows, whatever the opcode value, raises Unknown-Instruction at ia; a Running
machine whose fetched word has op above 11 steps to that fault, recorded at the word's address, with pc one more
and nothing else changed. [stated: R211] -/
def Obligations.UnknownOpcodesRaiseUnknownInstruction : Prop :=
  (∀ (op : BitVec 6) (s : State),
      exec (.unknown12 op) s = .next (s.raised .unknownInstruction s.ia) ∧
      exec (.unknown16 op) s = .next (s.raised .unknownInstruction s.ia) ∧
      exec (.unknown32 op) s = .next (s.raised .unknownInstruction s.ia)) ∧
    ∀ s : State, s.run = .running → s.pc < s.textSize → 11 < (opField (s.textWord s.pc)).toNat →
      step s = .next ((s.setPc (s.pc + 1#32)).raised .unknownInstruction s.pc)

/-- The four forms with imm = 1 raise Immediate-Value at ia with nothing else touched, whatever their other fields
(an illegal condition too); no other instruction raises it. [stated: R131] -/
def Obligations.LiteralFormsRaiseImmediateValue : Prop :=
  (∀ (r : RegId) (c : BitVec 4) (v : Word) (s : State),
      exec (.storeImm r v) s = .next (s.raised .immediateValue s.ia) ∧
      exec (.branchImm c v) s = .next (s.raised .immediateValue s.ia) ∧
      exec (.callImm c v) s = .next (s.raised .immediateValue s.ia) ∧
      exec (.popImm v) s = .next (s.raised .immediateValue s.ia)) ∧
    ∀ (i : Instr) (s t : State), illegalForm i = false → s.faultKind ≠ some .immediateValue → exec i s = .next t →
      t.faultKind ≠ some .immediateValue

/-- Each form of LOAD completes: a literal always, a memory operand when its address is below data_size. The
register holds the operand (read before the write, so base may be destination), cc its sign, and every other
register, pc, sp, every data and text word, the sizes and the run state are as before. [derived:
41_load_store.md, LOAD (pseudocode and flags); 10_state.md section 2; 92_eei_decisions.md D7, D8 (indexed
address)] -/
def Obligations.LoadWritesOperandAndSign : Prop :=
  ∀ (rd : RegId) (s : State),
    (∀ v, ∃ t, exec (.loadImm rd v) s = .next t ∧ WritesRegister rd v s t) ∧
    (∀ a, a < s.dataSize → ∃ t, exec (.loadAbs rd a) s = .next t ∧ WritesRegister rd (s.dataWord a) s t) ∧
    (∀ b o, s.reg b + o < s.dataSize →
      ∃ t, exec (.loadIdx rd b o) s = .next t ∧ WritesRegister rd (s.dataWord (s.reg b + o)) s t)

/-- Each addressed form of STORE completes when its address is below data_size, inside the stack window or not: that
word holds the register and every other data word, all registers, cc, pc, sp, text, sizes and run state are as
before. [derived: 41_load_store.md, STORE (pseudocode and flags); 20_memory.md section 3; 92_eei_decisions.md
D7, D8 (indexed address)] -/
def Obligations.StoreWritesOneDataWord : Prop :=
  ∀ (rs : RegId) (s : State),
    (∀ a, a < s.dataSize → ∃ t, exec (.storeAbs rs a) s = .next t ∧ WritesData a (s.reg rs) s t) ∧
    (∀ b o, s.reg b + o < s.dataSize →
      ∃ t, exec (.storeIdx rs b o) s = .next t ∧ WritesData (s.reg b + o) (s.reg rs) s t)

/-- Each form of ADD completes under LOAD's conditions; the register holds old value plus operand modulo 2^32, cc
its sign, all else as before. Wrapping on overflow is the spec's decision D7 (log 7). [derived: 42_add_sub.md,
ADD (pseudocode and flags); 92_eei_decisions.md D7; 93_implementation_defined.md U1] -/
def Obligations.AddWritesSumAndSign : Prop :=
  ∀ (rd : RegId) (s : State),
    (∀ v, ∃ t, exec (.addImm rd v) s = .next t ∧ WritesRegister rd (s.reg rd + v) s t) ∧
    (∀ a, a < s.dataSize →
      ∃ t, exec (.addAbs rd a) s = .next t ∧ WritesRegister rd (s.reg rd + s.dataWord a) s t) ∧
    (∀ b o, s.reg b + o < s.dataSize →
      ∃ t, exec (.addIdx rd b o) s = .next t ∧ WritesRegister rd (s.reg rd + s.dataWord (s.reg b + o)) s t)

/-- Each form of SUB completes under LOAD's conditions; the register holds old value minus operand modulo 2^32, cc
its sign, all else as before. Wrapping on overflow is the spec's decision D7 (log 7). [derived: 42_add_sub.md,
SUB (pseudocode and flags); 92_eei_decisions.md D7; 93_implementation_defined.md U1] -/
def Obligations.SubWritesDifferenceAndSign : Prop :=
  ∀ (rd : RegId) (s : State),
    (∀ v, ∃ t, exec (.subImm rd v) s = .next t ∧ WritesRegister rd (s.reg rd - v) s t) ∧
    (∀ a, a < s.dataSize →
      ∃ t, exec (.subAbs rd a) s = .next t ∧ WritesRegister rd (s.reg rd - s.dataWord a) s t) ∧
    (∀ b o, s.reg b + o < s.dataSize →
      ∃ t, exec (.subIdx rd b o) s = .next t ∧ WritesRegister rd (s.reg rd - s.dataWord (s.reg b + o)) s t)

/-- Where the signed sum (difference) of register and operand fits 32 bits, the completed ADD (SUB) leaves exactly
it in the register; and the cc a SUB leaves is Zero iff the operands were equal and, without overflow, Positive
iff the register was greater and Negative iff it was less. No clause rests on the wrap of D7 but the Zero
clause. [derived: 42_add_sub.md, SUB (flags); 42_add_sub.md section Arithmetic laws;
93_implementation_defined.md U1] -/
def Obligations.ArithmeticInRangeIsExact : Prop :=
  (∀ (rd : RegId) (v : Word) (s : State),
      -2147483648 ≤ (s.reg rd).toInt + v.toInt → (s.reg rd).toInt + v.toInt < 2147483648 →
      ∀ i t, (i = .addImm rd v ∨
          (∃ a, i = .addAbs rd a ∧ a < s.dataSize ∧ s.dataWord a = v) ∨
          (∃ b o, i = .addIdx rd b o ∧ s.reg b + o < s.dataSize ∧ s.dataWord (s.reg b + o) = v)) →
        exec i s = .next t → (t.reg rd).toInt = (s.reg rd).toInt + v.toInt) ∧
    (∀ (rd : RegId) (v : Word) (s : State) (i : Instr) (t : State),
      (i = .subImm rd v ∨
          (∃ a, i = .subAbs rd a ∧ a < s.dataSize ∧ s.dataWord a = v) ∨
          (∃ b o, i = .subIdx rd b o ∧ s.reg b + o < s.dataSize ∧ s.dataWord (s.reg b + o) = v)) →
      exec i s = .next t →
        (t.cc = .zero ↔ s.reg rd = v) ∧
        (-2147483648 ≤ (s.reg rd).toInt - v.toInt → (s.reg rd).toInt - v.toInt < 2147483648 →
          (t.reg rd).toInt = (s.reg rd).toInt - v.toInt ∧
          (t.cc = .positive ↔ v.toInt < (s.reg rd).toInt) ∧ (t.cc = .negative ↔ (s.reg rd).toInt < v.toInt)))

/-- For every register, literal and state, the two instructions complete and leave every general register, data
word, sp and size as before the first. It rests on the wrap of D7 (log 7). [derived: 42_add_sub.md section
Arithmetic laws; 92_eei_decisions.md D7] -/
def Obligations.AddThenSubRestoresRegister : Prop :=
  ∀ (rd : RegId) (v : Word) (s : State), ∃ t u,
    exec (.addImm rd v) s = .next t ∧ exec (.subImm rd v) t = .next u ∧
      SameRegs s u ∧ SameData s u ∧ SameLimits s u ∧ SameRun s u ∧ u.sp = s.sp ∧ u.pc = s.pc

/-- For every word, the classifier gives Zero iff the word is 0, Positive iff bit 31 is 0 and it is not 0, Negative
iff bit 31 is 1, and never Undefined; and after every LOAD, ADD or SUB that does not fault, cc is the class of
the register it wrote. [stated: R133] -/
def Obligations.CcIsSignOfTheValueWritten : Prop :=
  (∀ (v : Word) (s : State),
      ((setCcFrom v s).cc = .zero ↔ v = 0) ∧
      ((setCcFrom v s).cc = .positive ↔ v ≠ 0 ∧ v.getLsbD 31 = false) ∧
      ((setCcFrom v s).cc = .negative ↔ v.getLsbD 31 = true) ∧
      ((setCcFrom v s).cc = .positive ↔ 0 < v.toInt) ∧ ((setCcFrom v s).cc = .negative ↔ v.toInt < 0) ∧
      (setCcFrom v s).cc ≠ .undefined) ∧
    ∀ (i : Instr) (rd : RegId) (s t : State), destReg i = some rd → s.run = .running → exec i s = .next t →
      t.run = .running → t.cc = (setCcFrom (t.reg rd) t).cc

/-- For each condition NC EQ NE GT GE LT LE and each cc, check_condition answers the table's truth value; NE, GE and
LE are true of Undefined. The condition numbers are the spec's decision D4 (log 8). [derived:
40_cycle_and_operands.md section 4, truth table; 92_eei_decisions.md D4] -/
def Obligations.ConditionTruthTable : Prop :=
  ∀ s : State,
    (s.cc = .undefined → checkCondition 0 s = .ok true ∧ checkCondition 1 s = .ok false ∧ checkCondition 2 s = .ok true ∧
      checkCondition 3 s = .ok false ∧ checkCondition 4 s = .ok true ∧ checkCondition 5 s = .ok false ∧
      checkCondition 6 s = .ok true) ∧
    (s.cc = .zero → checkCondition 0 s = .ok true ∧ checkCondition 1 s = .ok true ∧ checkCondition 2 s = .ok false ∧
      checkCondition 3 s = .ok false ∧ checkCondition 4 s = .ok true ∧ checkCondition 5 s = .ok false ∧
      checkCondition 6 s = .ok true) ∧
    (s.cc = .positive → checkCondition 0 s = .ok true ∧ checkCondition 1 s = .ok false ∧ checkCondition 2 s = .ok true ∧
      checkCondition 3 s = .ok true ∧ checkCondition 4 s = .ok true ∧ checkCondition 5 s = .ok false ∧
      checkCondition 6 s = .ok false) ∧
    (s.cc = .negative → checkCondition 0 s = .ok true ∧ checkCondition 1 s = .ok false ∧ checkCondition 2 s = .ok true ∧
      checkCondition 3 s = .ok false ∧ checkCondition 4 s = .ok false ∧ checkCondition 5 s = .ok true ∧
      checkCondition 6 s = .ok true)

/-- For both addressed forms: if the condition holds and the target is below text_size, only pc changes, to the
target; if the condition is one of the seven and does not hold, nothing changes, wherever the target lies (log 8
for the condition numbers). [derived: 43_branch_call_ret.md, BRANCH (pseudocode); 40_cycle_and_operands.md
section 4, truth table; 92_eei_decisions.md D4, D7, D8] -/
def Obligations.BranchSetsPcOrFallsThrough : Prop :=
  ∀ (c : BitVec 4) (s : State),
    (∀ a, Holds c s.cc → a < s.textSize → exec (.branchAbs c a) s = .next (s.setPc a)) ∧
    (∀ b o, Holds c s.cc → s.reg b + o < s.textSize → exec (.branchIdx c b o) s = .next (s.setPc (s.reg b + o))) ∧
    (∀ a, c.toNat < 7 → ¬ Holds c s.cc → exec (.branchAbs c a) s = .next s) ∧
    (∀ b o, c.toNat < 7 → ¬ Holds c s.cc → exec (.branchIdx c b o) s = .next s)

/-- For both addressed forms, if the condition holds and the target is not below text_size, the machine faults with
Segment-Text and no register, cc, sp, data word, text word or size changes. As U5 asks, the recorded address is
only said to be ia or the target and pc ia + 1 or the target (D14, log 12). [derived: 43_branch_call_ret.md,
BRANCH (faults); 92_eei_decisions.md D14; 93_implementation_defined.md U5] -/
def Obligations.BranchOutsideTextRaisesSegmentText : Prop :=
  ∀ (c : BitVec 4) (i : Instr) (target : Word) (s : State), Holds c s.cc → s.textSize ≤ target →
    (i = .branchAbs c target ∨ ∃ b o, i = .branchIdx c b o ∧ target = s.reg b + o) →
    ∃ t addr, exec i s = .next t ∧ Raised .segmentText addr t ∧ (addr = s.ia ∨ addr = target) ∧
      (t.pc = s.pc ∨ t.pc = target) ∧ SameRegs s t ∧ t.cc = s.cc ∧ t.sp = s.sp ∧ SameData s t ∧ SameLimits s t

/-- Both addressed forms of BRANCH and CALL with rc in 7..15 raise Illegal-Condition at ia, whatever cc, the target
and the stack hold, with nothing pushed and pc as it was; with a literal the immediate check comes first.
[stated: R213] -/
def Obligations.IllegalConditionRaises : Prop :=
  ∀ (c : BitVec 4) (s : State), 7 ≤ c.toNat →
    (∀ a, exec (.branchAbs c a) s = .next (s.raised .illegalCondition s.ia) ∧
      exec (.callAbs c a) s = .next (s.raised .illegalCondition s.ia)) ∧
    (∀ b o, exec (.branchIdx c b o) s = .next (s.raised .illegalCondition s.ia) ∧
      exec (.callIdx c b o) s = .next (s.raised .illegalCondition s.ia)) ∧
    (∀ v, exec (.branchImm c v) s = .next (s.raised .immediateValue s.ia) ∧
      exec (.callImm c v) s = .next (s.raised .immediateValue s.ia))

/-- For both addressed forms: if the condition holds and a push can complete, sp goes down one, the word at the old
sp is pc (ia + 1), pc is the target, inside the text or not, and all else is as before; if the condition is one
of the seven and does not hold, nothing changes. The written cell is the spec's decision D9 (log 9). [derived:
43_branch_call_ret.md, CALL (pseudocode); 40_cycle_and_operands.md section 5; 92_eei_decisions.md D9, D14] -/
def Obligations.CallPushesReturnAddressAndJumps : Prop :=
  ∀ (c : BitVec 4) (s : State),
    (∀ a, Holds c s.cc → CanPush s →
      ∃ t, exec (.callAbs c a) s = .next t ∧ t.pc = a ∧ PushesWord s.pc s t) ∧
    (∀ b o, Holds c s.cc → CanPush s →
      ∃ t, exec (.callIdx c b o) s = .next t ∧ t.pc = s.reg b + o ∧ PushesWord s.pc s t) ∧
    (∀ a, c.toNat < 7 → ¬ Holds c s.cc → exec (.callAbs c a) s = .next s) ∧
    (∀ b o, c.toNat < 7 → ¬ Holds c s.cc → exec (.callIdx c b o) s = .next s)

/-- Where a pop can complete, RET leaves pc equal to the word at the new sp bit for bit, sp one higher, and every
register, cc, data word (the popped one too), text word, size and the run state as before. Where the word is
read is the spec's decision D9 (log 9). [derived: 43_branch_call_ret.md, RET (pseudocode);
40_cycle_and_operands.md section 5; 92_eei_decisions.md D9, D28] -/
def Obligations.RetPopsPc : Prop :=
  ∀ s : State, CanPop s →
    ∃ t, exec .ret s = .next t ∧ t.pc = s.dataWord (s.sp + 1#32) ∧ t.sp = s.sp + 1#32 ∧ SameRegs s t ∧ t.cc = s.cc ∧
      SameData s t ∧ SameLimits s t ∧ SameRun s t

/-- If a CALL is taken and completes, then in any later state with the sp the CALL left, the same limits and the
pushed word in place, RET completes with pc behind the CALL and sp as before the CALL. That the pushed word is
the one at the sp before the CALL is the spec's decision D9 (log 9, U11). [derived: 43_branch_call_ret.md
section Calling convention; 40_cycle_and_operands.md section 5; 92_eei_decisions.md D9;
93_implementation_defined.md U11] -/
def Obligations.CallThenRetReturns : Prop :=
  ∀ (c : BitVec 4) (i : Instr) (s t u : State), Holds c s.cc →
    ((∃ a, i = .callAbs c a) ∨ ∃ b o, i = .callIdx c b o) → Completes (exec i s) t →
    u.sp = t.sp → u.dataWord s.sp = t.dataWord s.sp → u.dataSize = t.dataSize → u.dataEnd = t.dataEnd →
    ∃ w, exec .ret u = .next w ∧ w.pc = s.pc ∧ w.sp = s.sp ∧ SameRegs u w ∧ w.cc = u.cc ∧ SameData u w ∧ SameRun u w

/-- Each form of PUSH completes where a push can complete and, for a memory operand, its address is below data_size:
the word at the old sp is the operand, read before sp moves, sp is one lower, and all registers, cc, pc, every
other data word, text, sizes and run state are as before. The written cell is the spec's decision D9 (log 9).
[derived: 44_push_pop.md, PUSH (pseudocode); 40_cycle_and_operands.md section 5; 92_eei_decisions.md D9, D10] -/
def Obligations.PushStoresOperandBelow : Prop :=
  ∀ s : State, CanPush s →
    (∀ v, ∃ t, exec (.pushImm v) s = .next t ∧ t.pc = s.pc ∧ PushesWord v s t) ∧
    (∀ a, a < s.dataSize → ∃ t, exec (.pushAbs a) s = .next t ∧ t.pc = s.pc ∧ PushesWord (s.dataWord a) s t) ∧
    (∀ b o, s.reg b + o < s.dataSize →
      ∃ t, exec (.pushIdx b o) s = .next t ∧ t.pc = s.pc ∧ PushesWord (s.dataWord (s.reg b + o)) s t)

/-- Each addressed form of POP completes where a pop can complete and the destination is below data_size: the
destination holds the word at the new sp, sp is one higher, and every other data word, all registers, cc, pc,
text, sizes and run state are as before. Where the word is read is the spec's decision D9 (log 9). [derived:
44_push_pop.md, POP (pseudocode); 40_cycle_and_operands.md section 5; 92_eei_decisions.md D9, D11] -/
def Obligations.PopMovesTopToData : Prop :=
  ∀ s : State, CanPop s →
    (∀ a, a < s.dataSize → ∃ t, exec (.popAbs a) s = .next t ∧ t.sp = s.sp + 1#32 ∧ t.dataWord a = s.dataWord (s.sp + 1#32) ∧
      SameDataBut a s t ∧ SameRegs s t ∧ t.cc = s.cc ∧ t.pc = s.pc ∧ SameLimits s t ∧ SameRun s t) ∧
    (∀ b o, s.reg b + o < s.dataSize → ∃ t, exec (.popIdx b o) s = .next t ∧ t.sp = s.sp + 1#32 ∧
      t.dataWord (s.reg b + o) = s.dataWord (s.sp + 1#32) ∧ SameDataBut (s.reg b + o) s t ∧ SameRegs s t ∧
      t.cc = s.cc ∧ t.pc = s.pc ∧ SameLimits s t ∧ SameRun s t)

/-- For every list of words and every state: if pushing them all raises no fault, then popping as many raises none
either, yields them in reverse order and restores sp; pc, cc, registers and sizes are as before. [derived:
40_cycle_and_operands.md section 5 (LIFO law); 95_test_vectors.md part 4, property 3] -/
def Obligations.StackIsLifo : Prop :=
  ∀ (vs : List Word) (s t : State), pushAll vs s = .ok t →
    ∃ u, popAll vs.length t = .ok (vs.reverse, u) ∧ u.sp = s.sp ∧ u.pc = s.pc ∧ u.cc = s.cc ∧ SameRegs s u ∧
      SameLimits s u ∧ SameRun s u

/-- Where a push can complete and both addresses are below data_size, the two instructions complete, data[b] holds
what data[a] held, sp, pc, cc, every register and every data word but b and the stack slot are as before. That
the slot is the word at the old sp is the spec's decision D9 (log 9, U11). [derived: 44_push_pop.md section What
the two share; 40_cycle_and_operands.md section 5; 92_eei_decisions.md D9; 93_implementation_defined.md U11] -/
def Obligations.PushPopMovesMemoryToMemory : Prop :=
  ∀ (a b : Word) (s : State), CanPush s → a < s.dataSize → b < s.dataSize →
    ∃ t u, exec (.pushAbs a) s = .next t ∧ exec (.popAbs b) t = .next u ∧ u.dataWord b = s.dataWord a ∧
      (∀ x, x ≠ b → x ≠ s.sp → u.dataWord x = s.dataWord x) ∧ u.sp = s.sp ∧ u.pc = s.pc ∧ u.cc = s.cc ∧
      SameRegs s u ∧ SameLimits s u ∧ SameRun s u

/-- For every instruction and state: it raises Segment-Data iff it has an operand or destination address that the
data check is applied to and that address is not below data_size; then the fault is recorded at ia and nothing
else changes. Accesses through sp never raise it. That a POP with a bad destination raises it even on an empty
stack, with sp unchanged, is the spec's decision D11 (log 10, U12), the wrapped and unsigned address D7 and D8
(log 7, log 20). [derived: 60_exceptions.md section 1 (Segment-Data); 44_push_pop.md, POP (faults);
92_eei_decisions.md D7, D8, D11; 93_implementation_defined.md U12] -/
def Obligations.SegmentDataFiresOutsideData : Prop :=
  ∀ (i : Instr) (s : State), s.faultKind ≠ some .segmentData →
    ((∃ t, exec i s = .next t ∧ t.faultKind = some .segmentData) ↔
      ∃ a, dataOperand i s = some a ∧ s.dataSize ≤ a) ∧
    (∀ a, dataOperand i s = some a → s.dataSize ≤ a → exec i s = .next (s.raised .segmentData s.ia))

/-- For every instruction and state: it raises Segment-Stack iff it comes to adjust sp and the adjusted sp is below
data_end or not below data_size; then the fault is recorded at ia, sp keeps the adjusted value, no data word is
written and nothing else changes. That no data word is written is the spec's decision D10 (log 9); that a POP
with a bad destination never comes to adjust sp is D11 (log 10, U12). [derived: 60_exceptions.md section 1
(Segment-Stack); 40_cycle_and_operands.md section 5; 92_eei_decisions.md D10, D11; 93_implementation_defined.md
U12] -/
def Obligations.SegmentStackFiresOutsideWindow : Prop :=
  ∀ (i : Instr) (s : State), s.faultKind ≠ some .segmentStack →
    ((∃ t, exec i s = .next t ∧ t.faultKind = some .segmentStack) ↔
      ∃ sp', adjustedSp i s = some sp' ∧ (sp' < s.dataEnd ∨ s.dataSize ≤ sp')) ∧
    (∀ sp', adjustedSp i s = some sp' → (sp' < s.dataEnd ∨ s.dataSize ≤ sp') →
      exec i s = .next ((s.setSp sp').raised .segmentStack s.ia))

/-- For every instruction and Running state: if exec answers a Faulted state, its kind is one the matrix lists for
that form. [derived: 60_exceptions.md section 9] -/
def Obligations.OnlyListedFaultsAreRaised : Prop :=
  ∀ (i : Instr) (s t : State), s.run = .running → exec i s = .next t → t.run = .faulted →
    ∃ k, k ∈ canRaise i ∧ t.faultKind = some k

/-- From every Running state, a step that ends in Faulted leaves registers, cc, data, text and sizes as before; pc
is ia + 1, or unchanged for the fetch check; sp is unchanged, or moved by one for Segment-Stack. Decisions of
the spec: a failed push writes nothing is D10 (log 9), pc in Faulted D30 (log 21), and in particular after a
BRANCH out of the text D14 (log 12, U5), sp after a POP that raises Segment-Data D11 (log 10, U12). [derived:
40_cycle_and_operands.md section 6, table of partial effects; 60_exceptions.md section 4; 92_eei_decisions.md
D10, D11, D14, D30; 93_implementation_defined.md U5, U12] -/
def Obligations.FaultingStepWritesNoRegisterOrData : Prop :=
  ∀ s t : State, s.run = .running → step s = .next t → t.run = .faulted →
    SameRegs s t ∧ t.cc = s.cc ∧ SameData s t ∧ SameLimits s t ∧
      (s.pc < s.textSize → t.pc = s.pc + 1#32) ∧ (s.textSize ≤ s.pc → t.pc = s.pc) ∧
      (t.faultKind ≠ some .segmentStack → t.sp = s.sp) ∧
      (t.faultKind = some .segmentStack → t.sp = s.sp - 1#32 ∨ t.sp = s.sp + 1#32)

/-- For every instruction that answers a next state, every register but its destination is as before, and without a
destination every register and cc are as before. [derived: 10_state.md sections 2 and 5] -/
def Obligations.OnlyLoadAddSubWriteRegistersAndCc : Prop :=
  ∀ (i : Instr) (s t : State), exec i s = .next t →
    (∀ r, destReg i ≠ some r → t.reg r = s.reg r) ∧ (destReg i = none → t.cc = s.cc)

/-- For every instruction that answers a next state, every data word but the one at its destination (STORE, POP) or
at the old sp (PUSH, CALL) is as before. [derived: 20_memory.md section 3, table of accesses;
92_eei_decisions.md D9] -/
def Obligations.OnlyStackAndStoresWriteData : Prop :=
  ∀ (i : Instr) (s t : State), exec i s = .next t →
    ∀ a, storedAddress i s ≠ some a → t.dataWord a = s.dataWord a

/-- For every other instruction that answers a next state, faulted or not, pc is the incremented pc the handler
started with. [derived: 10_state.md section 3] -/
def Obligations.OtherInstructionsFallThrough : Prop :=
  ∀ (i : Instr) (s t : State), exec i s = .next t → transfers i = false → t.pc = s.pc

/-- Whatever the state, a step that answers a next state leaves every text word and text_size, data_size and
data_end as before. [derived: 10_state.md sections 4 and 7; 95_test_vectors.md part 4, property 6] -/
def Obligations.StepKeepsTextAndSizes : Prop :=
  ∀ s t : State, step s = .next t → SameLimits s t

/-- Whatever the state, if cc is not Undefined then after a step that answers a next state it is not Undefined.
[derived: 10_state.md section 5] -/
def Obligations.CcNeverReturnsToUndefined : Prop :=
  ∀ s t : State, step s = .next t → s.cc ≠ .undefined → t.cc ≠ .undefined

/-- In the reset state every register is 0, pc is 0, cc is Undefined, sp is data_size - 1, RUN is Running and
FAULT_KIND is None (the last two are the spec's decision D17). Nothing is said of the model's own choices: the
sizes (log 3) and FAULT_ADDR (log 4). [derived: 10_state.md section 12; 92_eei_decisions.md D17] -/
def Obligations.ResetHoldsTheLoadValues : Prop :=
  (∀ r, State.reset.reg r = 0) ∧ State.reset.pc = 0 ∧ State.reset.cc = .undefined ∧
    State.reset.sp = State.reset.dataSize - 1#32 ∧ State.reset.run = .running ∧ State.reset.faultKind = none

/-- The reset state meets the invariant that every step keeps. [derived: 10_state.md sections 11 and 12] -/
def Obligations.ResetIsSound : Prop :=
  Sound State.reset

/-- A load within the capacities whose arrays have their stated sizes completes from every state, Unloaded, Halted
and Faulted too: registers, pc and cc are reset, sp is data_size - 1, sizes, text and data are the image's, RUN
is Running and FAULT_KIND None. The last two and reloading are the spec's decisions D17 and D19. [derived:
70_reset_and_hazards.md section 1; 92_eei_decisions.md D17, D19] -/
def Obligations.LoadInstallsTheImage : Prop :=
  ∀ (cap : Config.Capacity) (img : Image) (addr : Word) (s : State),
    img.textSize ≤ cap.textCap → img.dataSize ≤ cap.dataCap →
    img.text.length = img.textSize.toNat → img.data.length = img.dataSize.toNat →
    ∃ t, loadImage cap img addr s = .next t ∧ (∀ r, t.reg r = 0) ∧ t.pc = 0 ∧ t.cc = .undefined ∧
      t.textSize = img.textSize ∧ t.dataSize = img.dataSize ∧ t.dataEnd = img.dataEnd ∧ t.sp = img.dataSize - 1#32 ∧
      (∀ a, a < img.textSize → img.text[a.toNat]? = some (t.textWord a)) ∧
      (∀ a, a < img.dataSize → img.data[a.toNat]? = some (t.dataWord a)) ∧
      t.faultKind = none ∧ t.run = .running

/-- A load whose sizes exceed the capacities is refused as such; one within them whose text or data has another
number of words than stated is refused as such. Refusing is U9's treatment (log 14). [derived:
70_reset_and_hazards.md section 2; 93_implementation_defined.md U9] -/
def Obligations.LoadOutsideItsDutiesIsRefused : Prop :=
  ∀ (cap : Config.Capacity) (img : Image) (addr : Word) (s : State),
    (cap.textCap < img.textSize ∨ cap.dataCap < img.dataSize →
      loadImage cap img addr s = .refused .beyondCapacity) ∧
    (img.textSize ≤ cap.textCap → img.dataSize ≤ cap.dataCap →
      (img.text.length ≠ img.textSize.toNat ∨ img.data.length ≠ img.dataSize.toNat) →
      loadImage cap img addr s = .refused .imageLength)

/-- Whatever the image, if load answers a next state, that state meets the invariant that every step keeps.
[derived: 10_state.md sections 11 and 12; 70_reset_and_hazards.md section 1] -/
def Obligations.LoadedStateIsSound : Prop :=
  ∀ (cap : Config.Capacity) (img : Image) (addr : Word) (s t : State),
    loadImage cap img addr s = .next t → Sound t

/-- From every sound state, reachable or not, a step that answers a next state answers a sound one: both word arrays
stay in canonical form, sp stays where load put it or inside the stack window until a fault, and the fault
record holds a kind exactly when the machine is Faulted. [derived: 10_state.md section 11; 20_memory.md section
3] -/
def Obligations.StepKeepsSound : Prop :=
  ∀ s t : State, Sound s → step s = .next t → Sound t

/-- From every sound state but Unloaded, step answers a next state that is Running, Halted or Faulted and delivers
Continue, Halted or a Fault: never the model's own stop. That Halted and Faulted answer a step is the spec's
decision D18 (log 6). [derived: 40_cycle_and_operands.md section 1 (result of a step); 10_state.md section 11;
70_reset_and_hazards.md section 3; 92_eei_decisions.md D18] -/
def Obligations.SoundStateAlwaysSteps : Prop :=
  ∀ s : State, Sound s → s.run ≠ .unloaded →
    ∃ t, step s = .next t ∧
      ((t.run = .running ∧ t.result? = some .continue) ∨ (t.run = .halted ∧ t.result? = some .halted) ∨
        (t.run = .faulted ∧ ∃ k addr, t.result? = some (.fault k addr)))

/-- For every image and every number of steps, the run from the loaded state answers a sound state that is Running,
Halted, or Faulted with a kind on record. That steps go on being answered in Halted and Faulted is the spec's
decision D18 (log 6). [derived: 70_reset_and_hazards.md section 3; 40_cycle_and_operands.md section 1;
92_eei_decisions.md D18] -/
def Obligations.LoadedRunsNeverGetStuck : Prop :=
  ∀ (cap : Config.Capacity) (img : Image) (addr : Word) (s0 s : State) (n : Nat),
    loadImage cap img addr s0 = .next s →
    ∃ t, runFor n s = .next t ∧ Sound t ∧
      (t.run = .running ∨ t.run = .halted ∨ (t.run = .faulted ∧ ∃ k, t.faultKind = some k))

/-- After any accepted load and any number of steps, every text word below text_size is still the word the image
gives, and text_size is the image's; so the word fetched at an address is always the loaded one. [stated: R63] -/
def Obligations.FetchedTextIsTheLoadedText : Prop :=
  ∀ (cap : Config.Capacity) (img : Image) (addr : Word) (s0 s t : State) (n : Nat),
    loadImage cap img addr s0 = .next s → runFor n s = .next t →
    t.textSize = img.textSize ∧ ∀ a, a < img.textSize → img.text[a.toNat]? = some (t.textWord a)

/-- In a Running state whose fetched word decodes to BRANCH NC to its own address, a run of any length answers that
very state: the hang is a behaviour of the machine, not a fault (log 8 for the condition number). [derived:
70_reset_and_hazards.md section 4; 93_implementation_defined.md U14] -/
def Obligations.SelfBranchRunsForever : Prop :=
  ∀ (s : State) (n : Nat), s.run = .running → s.pc < s.textSize →
    decode (s.textWord s.pc) = .branchAbs 0 s.pc → runFor n s = .next s

/-- A data or text port below its size shows the array's word; at or above it the request is refused (U17, log 19).
[derived: 10_state.md section 10; 93_implementation_defined.md U17] -/
def Obligations.DataAndTextPortsShowTheArrays : Prop :=
  ∀ (s : State) (a : Word),
    (a < s.dataSize → readPort (.data a) s = .ok (.word (s.dataWord a))) ∧
    (s.dataSize ≤ a → readPort (.data a) s = .error .portIndex) ∧
    (a < s.textSize → readPort (.text a) s = .ok (.word (s.textWord a))) ∧
    (s.textSize ≤ a → readPort (.text a) s = .error .portIndex)
end

