-- ==== Sys2Proof/Laws/Encoding.lean ====
section
/-! SUPPORT. Each field of the encoder's word reads back (30_encoding.md R83, R94). -/

namespace Sys2Proof

/-- The encoder's word, bit by bit (R94). -/
theorem encodeWord_getLsbD (op : BitVec 6) (imm idx : Bool) (rc : BitVec 4) (p : BitVec 20) (i : Nat) :
    (encodeWord op imm idx rc p).getLsbD i =
      if i < 6 then op.getLsbD i else if i < 7 then imm else if i < 8 then idx
      else if i < 12 then rc.getLsbD (i - 8) else p.getLsbD (i - 12) := by
  have h : (encodeWord op imm idx rc p).getLsbD i =
      (p ++ rc ++ BitVec.ofBool idx ++ BitVec.ofBool imm ++ op : BitVec (20 + 4 + 1 + 1 + 6)).getLsbD i := rfl
  rw [h, BitVec.getLsbD_append, BitVec.getLsbD_append, BitVec.getLsbD_append, BitVec.getLsbD_append]
  by_cases h6 : i < 6
  · simp [h6]
  · by_cases h7 : i < 7
    · have : i = 6 := by omega
      subst this; simp
    · by_cases h8 : i < 8
      · have : i = 7 := by omega
        subst this; simp
      · by_cases h12 : i < 12
        · have e1 : ¬ i - 6 < 1 := by omega
          have e2 : ¬ i - 6 - 1 < 1 := by omega
          have e3 : i - 6 - 1 - 1 < 4 := by omega
          have e4 : i - 6 - 1 - 1 = i - 8 := by omega
          rw [if_neg h6, if_neg e1, if_neg e2, if_pos e3, e4]
          simp [h6, h7, h8, h12]
        · have e1 : ¬ i - 6 < 1 := by omega
          have e2 : ¬ i - 6 - 1 < 1 := by omega
          have e3 : ¬ i - 6 - 1 - 1 < 4 := by omega
          have e4 : i - 6 - 1 - 1 - 4 = i - 12 := by omega
          rw [if_neg h6, if_neg e1, if_neg e2, if_neg e3, e4]
          simp [h6, h7, h8, h12]

theorem opField_encodeWord (op : BitVec 6) (imm idx : Bool) (rc : BitVec 4) (p : BitVec 20) :
    opField (encodeWord op imm idx rc p) = op := by
  apply BitVec.eq_of_getLsbD_eq
  intro i hi
  simp [opField, encodeWord_getLsbD, hi]

theorem immField_encodeWord (op : BitVec 6) (imm idx : Bool) (rc : BitVec 4) (p : BitVec 20) :
    immField (encodeWord op imm idx rc p) = imm := by
  rw [immField, encodeWord_getLsbD]; simp

theorem idxField_encodeWord (op : BitVec 6) (imm idx : Bool) (rc : BitVec 4) (p : BitVec 20) :
    idxField (encodeWord op imm idx rc p) = idx := by
  rw [idxField, encodeWord_getLsbD]; simp

theorem rcField_encodeWord (op : BitVec 6) (imm idx : Bool) (rc : BitVec 4) (p : BitVec 20) :
    rcField (encodeWord op imm idx rc p) = rc := by
  apply BitVec.eq_of_getLsbD_eq
  intro i hi
  have h1 : ¬ 8 + i < 6 := by omega
  have h2 : ¬ 8 + i < 7 := by omega
  have h3 : 8 + i < 12 := by omega
  simp [rcField, encodeWord_getLsbD, hi, h1, h2, h3]

theorem payloadField_encodeWord (op : BitVec 6) (imm idx : Bool) (rc : BitVec 4) (p : BitVec 20) :
    payloadField (encodeWord op imm idx rc p) = p := by
  apply BitVec.eq_of_getLsbD_eq
  intro i hi
  have h1 : ¬ 12 + i < 6 := by omega
  have h2 : ¬ 12 + i < 7 := by omega
  have h3 : ¬ 12 + i < 8 := by omega
  simp [payloadField, encodeWord_getLsbD, hi, h1, h2, h3]

/-- The base register is the low 4 bits of the payload (R83). -/
theorem baseField_eq (w : Word) : baseField w = (payloadField w).extractLsb' 0 4 := by
  apply BitVec.eq_of_getLsbD_eq
  intro i hi
  have h : i < 20 := by omega
  simp [baseField, payloadField, hi, h]

/-- The offset is the high 16 bits of the payload (R83). -/
theorem offsetField_eq (w : Word) : offsetField w = (payloadField w).extractLsb' 4 16 := by
  apply BitVec.eq_of_getLsbD_eq
  intro i hi
  have h : 4 + i < 20 := by omega
  have e : 12 + (4 + i) = 16 + i := by omega
  simp [offsetField, payloadField, hi, h, e]

/-- What the decoder reads from the encoder's word. -/
theorem decodeFields_encodeWord (op : BitVec 6) (imm idx : Bool) (rc : BitVec 4) (p : BitVec 20) :
    decodeFields (encodeWord op imm idx rc p) =
      { op := op, imm := imm, idx := idx, rc := rc, value := p.signExtend 32, address := p.setWidth 32,
        base := p.extractLsb' 0 4, offset := (p.extractLsb' 4 16).signExtend 32 } := by
  simp only [decodeFields, opField_encodeWord, immField_encodeWord, idxField_encodeWord, rcField_encodeWord,
    payloadField_encodeWord, baseField_eq, offsetField_eq]

end Sys2Proof
end

