-- ==== Sys2Proof/Laws/State.lean ====
section
/-! SUPPORT. One lemma for each field of State under each update, so that no proof unfolds a record update; then the
readers `reg`, `dataWord`, `textWord`, `inWindow` and `ia` under each update. -/

namespace Sys2Proof.Machine

@[simp] theorem State.setReg_regs (s : State) (r : RegId) (v : Word) : (s.setReg r v).regs = s.regs.set r.toNat v r.isLt := rfl
@[simp] theorem State.setReg_pc (s : State) (r : RegId) (v : Word) : (s.setReg r v).pc = s.pc := rfl
@[simp] theorem State.setReg_cc (s : State) (r : RegId) (v : Word) : (s.setReg r v).cc = s.cc := rfl
@[simp] theorem State.setReg_sp (s : State) (r : RegId) (v : Word) : (s.setReg r v).sp = s.sp := rfl
@[simp] theorem State.setReg_textSize (s : State) (r : RegId) (v : Word) : (s.setReg r v).textSize = s.textSize := rfl
@[simp] theorem State.setReg_dataSize (s : State) (r : RegId) (v : Word) : (s.setReg r v).dataSize = s.dataSize := rfl
@[simp] theorem State.setReg_dataEnd (s : State) (r : RegId) (v : Word) : (s.setReg r v).dataEnd = s.dataEnd := rfl
@[simp] theorem State.setReg_text (s : State) (r : RegId) (v : Word) : (s.setReg r v).text = s.text := rfl
@[simp] theorem State.setReg_data (s : State) (r : RegId) (v : Word) : (s.setReg r v).data = s.data := rfl
@[simp] theorem State.setReg_run (s : State) (r : RegId) (v : Word) : (s.setReg r v).run = s.run := rfl
@[simp] theorem State.setReg_faultKind (s : State) (r : RegId) (v : Word) : (s.setReg r v).faultKind = s.faultKind := rfl
@[simp] theorem State.setReg_faultAddr (s : State) (r : RegId) (v : Word) : (s.setReg r v).faultAddr = s.faultAddr := rfl

@[simp] theorem State.setPc_regs (s : State) (v : Word) : (s.setPc v).regs = s.regs := rfl
@[simp] theorem State.setPc_pc (s : State) (v : Word) : (s.setPc v).pc = v := rfl
@[simp] theorem State.setPc_cc (s : State) (v : Word) : (s.setPc v).cc = s.cc := rfl
@[simp] theorem State.setPc_sp (s : State) (v : Word) : (s.setPc v).sp = s.sp := rfl
@[simp] theorem State.setPc_textSize (s : State) (v : Word) : (s.setPc v).textSize = s.textSize := rfl
@[simp] theorem State.setPc_dataSize (s : State) (v : Word) : (s.setPc v).dataSize = s.dataSize := rfl
@[simp] theorem State.setPc_dataEnd (s : State) (v : Word) : (s.setPc v).dataEnd = s.dataEnd := rfl
@[simp] theorem State.setPc_text (s : State) (v : Word) : (s.setPc v).text = s.text := rfl
@[simp] theorem State.setPc_data (s : State) (v : Word) : (s.setPc v).data = s.data := rfl
@[simp] theorem State.setPc_run (s : State) (v : Word) : (s.setPc v).run = s.run := rfl
@[simp] theorem State.setPc_faultKind (s : State) (v : Word) : (s.setPc v).faultKind = s.faultKind := rfl
@[simp] theorem State.setPc_faultAddr (s : State) (v : Word) : (s.setPc v).faultAddr = s.faultAddr := rfl

@[simp] theorem State.setCc_regs (s : State) (c : CondCode) : (s.setCc c).regs = s.regs := rfl
@[simp] theorem State.setCc_pc (s : State) (c : CondCode) : (s.setCc c).pc = s.pc := rfl
@[simp] theorem State.setCc_cc (s : State) (c : CondCode) : (s.setCc c).cc = c := rfl
@[simp] theorem State.setCc_sp (s : State) (c : CondCode) : (s.setCc c).sp = s.sp := rfl
@[simp] theorem State.setCc_textSize (s : State) (c : CondCode) : (s.setCc c).textSize = s.textSize := rfl
@[simp] theorem State.setCc_dataSize (s : State) (c : CondCode) : (s.setCc c).dataSize = s.dataSize := rfl
@[simp] theorem State.setCc_dataEnd (s : State) (c : CondCode) : (s.setCc c).dataEnd = s.dataEnd := rfl
@[simp] theorem State.setCc_text (s : State) (c : CondCode) : (s.setCc c).text = s.text := rfl
@[simp] theorem State.setCc_data (s : State) (c : CondCode) : (s.setCc c).data = s.data := rfl
@[simp] theorem State.setCc_run (s : State) (c : CondCode) : (s.setCc c).run = s.run := rfl
@[simp] theorem State.setCc_faultKind (s : State) (c : CondCode) : (s.setCc c).faultKind = s.faultKind := rfl
@[simp] theorem State.setCc_faultAddr (s : State) (c : CondCode) : (s.setCc c).faultAddr = s.faultAddr := rfl

@[simp] theorem State.setSp_regs (s : State) (v : Word) : (s.setSp v).regs = s.regs := rfl
@[simp] theorem State.setSp_pc (s : State) (v : Word) : (s.setSp v).pc = s.pc := rfl
@[simp] theorem State.setSp_cc (s : State) (v : Word) : (s.setSp v).cc = s.cc := rfl
@[simp] theorem State.setSp_sp (s : State) (v : Word) : (s.setSp v).sp = v := rfl
@[simp] theorem State.setSp_textSize (s : State) (v : Word) : (s.setSp v).textSize = s.textSize := rfl
@[simp] theorem State.setSp_dataSize (s : State) (v : Word) : (s.setSp v).dataSize = s.dataSize := rfl
@[simp] theorem State.setSp_dataEnd (s : State) (v : Word) : (s.setSp v).dataEnd = s.dataEnd := rfl
@[simp] theorem State.setSp_text (s : State) (v : Word) : (s.setSp v).text = s.text := rfl
@[simp] theorem State.setSp_data (s : State) (v : Word) : (s.setSp v).data = s.data := rfl
@[simp] theorem State.setSp_run (s : State) (v : Word) : (s.setSp v).run = s.run := rfl
@[simp] theorem State.setSp_faultKind (s : State) (v : Word) : (s.setSp v).faultKind = s.faultKind := rfl
@[simp] theorem State.setSp_faultAddr (s : State) (v : Word) : (s.setSp v).faultAddr = s.faultAddr := rfl

@[simp] theorem State.setRun_regs (s : State) (r : RunState) : (s.setRun r).regs = s.regs := rfl
@[simp] theorem State.setRun_pc (s : State) (r : RunState) : (s.setRun r).pc = s.pc := rfl
@[simp] theorem State.setRun_cc (s : State) (r : RunState) : (s.setRun r).cc = s.cc := rfl
@[simp] theorem State.setRun_sp (s : State) (r : RunState) : (s.setRun r).sp = s.sp := rfl
@[simp] theorem State.setRun_textSize (s : State) (r : RunState) : (s.setRun r).textSize = s.textSize := rfl
@[simp] theorem State.setRun_dataSize (s : State) (r : RunState) : (s.setRun r).dataSize = s.dataSize := rfl
@[simp] theorem State.setRun_dataEnd (s : State) (r : RunState) : (s.setRun r).dataEnd = s.dataEnd := rfl
@[simp] theorem State.setRun_text (s : State) (r : RunState) : (s.setRun r).text = s.text := rfl
@[simp] theorem State.setRun_data (s : State) (r : RunState) : (s.setRun r).data = s.data := rfl
@[simp] theorem State.setRun_run (s : State) (r : RunState) : (s.setRun r).run = r := rfl
@[simp] theorem State.setRun_faultKind (s : State) (r : RunState) : (s.setRun r).faultKind = s.faultKind := rfl
@[simp] theorem State.setRun_faultAddr (s : State) (r : RunState) : (s.setRun r).faultAddr = s.faultAddr := rfl

@[simp] theorem State.setData_regs (s : State) (a v : Word) : (s.setData a v).regs = s.regs := rfl
@[simp] theorem State.setData_pc (s : State) (a v : Word) : (s.setData a v).pc = s.pc := rfl
@[simp] theorem State.setData_cc (s : State) (a v : Word) : (s.setData a v).cc = s.cc := rfl
@[simp] theorem State.setData_sp (s : State) (a v : Word) : (s.setData a v).sp = s.sp := rfl
@[simp] theorem State.setData_textSize (s : State) (a v : Word) : (s.setData a v).textSize = s.textSize := rfl
@[simp] theorem State.setData_dataSize (s : State) (a v : Word) : (s.setData a v).dataSize = s.dataSize := rfl
@[simp] theorem State.setData_dataEnd (s : State) (a v : Word) : (s.setData a v).dataEnd = s.dataEnd := rfl
@[simp] theorem State.setData_text (s : State) (a v : Word) : (s.setData a v).text = s.text := rfl
@[simp] theorem State.setData_data (s : State) (a v : Word) : (s.setData a v).data = s.data.write a.toNat v := rfl
@[simp] theorem State.setData_run (s : State) (a v : Word) : (s.setData a v).run = s.run := rfl
@[simp] theorem State.setData_faultKind (s : State) (a v : Word) : (s.setData a v).faultKind = s.faultKind := rfl
@[simp] theorem State.setData_faultAddr (s : State) (a v : Word) : (s.setData a v).faultAddr = s.faultAddr := rfl

@[simp] theorem State.raised_regs (s : State) (k : FaultKind) (a : Word) : (s.raised k a).regs = s.regs := rfl
@[simp] theorem State.raised_pc (s : State) (k : FaultKind) (a : Word) : (s.raised k a).pc = s.pc := rfl
@[simp] theorem State.raised_cc (s : State) (k : FaultKind) (a : Word) : (s.raised k a).cc = s.cc := rfl
@[simp] theorem State.raised_sp (s : State) (k : FaultKind) (a : Word) : (s.raised k a).sp = s.sp := rfl
@[simp] theorem State.raised_textSize (s : State) (k : FaultKind) (a : Word) : (s.raised k a).textSize = s.textSize := rfl
@[simp] theorem State.raised_dataSize (s : State) (k : FaultKind) (a : Word) : (s.raised k a).dataSize = s.dataSize := rfl
@[simp] theorem State.raised_dataEnd (s : State) (k : FaultKind) (a : Word) : (s.raised k a).dataEnd = s.dataEnd := rfl
@[simp] theorem State.raised_text (s : State) (k : FaultKind) (a : Word) : (s.raised k a).text = s.text := rfl
@[simp] theorem State.raised_data (s : State) (k : FaultKind) (a : Word) : (s.raised k a).data = s.data := rfl
@[simp] theorem State.raised_run (s : State) (k : FaultKind) (a : Word) : (s.raised k a).run = .faulted := rfl
@[simp] theorem State.raised_faultKind (s : State) (k : FaultKind) (a : Word) : (s.raised k a).faultKind = some k := rfl
@[simp] theorem State.raised_faultAddr (s : State) (k : FaultKind) (a : Word) : (s.raised k a).faultAddr = a := rfl

@[simp] theorem State.setReg_dataWord (s : State) (r : RegId) (v : Word) (i : Word) : (s.setReg r v).dataWord i = s.dataWord i := rfl
@[simp] theorem State.setReg_textWord (s : State) (r : RegId) (v : Word) (i : Word) : (s.setReg r v).textWord i = s.textWord i := rfl
@[simp] theorem State.setReg_inWindow (s : State) (r : RegId) (v : Word) (i : Word) : (s.setReg r v).inWindow i = s.inWindow i := rfl
@[simp] theorem State.setReg_ia (s : State) (r : RegId) (v : Word) : (s.setReg r v).ia = s.ia := rfl

@[simp] theorem State.setPc_reg (s : State) (v : Word) (q : RegId) : (s.setPc v).reg q = s.reg q := rfl
@[simp] theorem State.setPc_dataWord (s : State) (v : Word) (i : Word) : (s.setPc v).dataWord i = s.dataWord i := rfl
@[simp] theorem State.setPc_textWord (s : State) (v : Word) (i : Word) : (s.setPc v).textWord i = s.textWord i := rfl
@[simp] theorem State.setPc_inWindow (s : State) (v : Word) (i : Word) : (s.setPc v).inWindow i = s.inWindow i := rfl

@[simp] theorem State.setCc_reg (s : State) (c : CondCode) (q : RegId) : (s.setCc c).reg q = s.reg q := rfl
@[simp] theorem State.setCc_dataWord (s : State) (c : CondCode) (i : Word) : (s.setCc c).dataWord i = s.dataWord i := rfl
@[simp] theorem State.setCc_textWord (s : State) (c : CondCode) (i : Word) : (s.setCc c).textWord i = s.textWord i := rfl
@[simp] theorem State.setCc_inWindow (s : State) (c : CondCode) (i : Word) : (s.setCc c).inWindow i = s.inWindow i := rfl
@[simp] theorem State.setCc_ia (s : State) (c : CondCode) : (s.setCc c).ia = s.ia := rfl

@[simp] theorem State.setSp_reg (s : State) (v : Word) (q : RegId) : (s.setSp v).reg q = s.reg q := rfl
@[simp] theorem State.setSp_dataWord (s : State) (v : Word) (i : Word) : (s.setSp v).dataWord i = s.dataWord i := rfl
@[simp] theorem State.setSp_textWord (s : State) (v : Word) (i : Word) : (s.setSp v).textWord i = s.textWord i := rfl
@[simp] theorem State.setSp_inWindow (s : State) (v : Word) (i : Word) : (s.setSp v).inWindow i = s.inWindow i := rfl
@[simp] theorem State.setSp_ia (s : State) (v : Word) : (s.setSp v).ia = s.ia := rfl

@[simp] theorem State.setRun_reg (s : State) (r : RunState) (q : RegId) : (s.setRun r).reg q = s.reg q := rfl
@[simp] theorem State.setRun_dataWord (s : State) (r : RunState) (i : Word) : (s.setRun r).dataWord i = s.dataWord i := rfl
@[simp] theorem State.setRun_textWord (s : State) (r : RunState) (i : Word) : (s.setRun r).textWord i = s.textWord i := rfl
@[simp] theorem State.setRun_inWindow (s : State) (r : RunState) (i : Word) : (s.setRun r).inWindow i = s.inWindow i := rfl
@[simp] theorem State.setRun_ia (s : State) (r : RunState) : (s.setRun r).ia = s.ia := rfl

@[simp] theorem State.setData_reg (s : State) (a v : Word) (q : RegId) : (s.setData a v).reg q = s.reg q := rfl
@[simp] theorem State.setData_textWord (s : State) (a v : Word) (i : Word) : (s.setData a v).textWord i = s.textWord i := rfl
@[simp] theorem State.setData_inWindow (s : State) (a v : Word) (i : Word) : (s.setData a v).inWindow i = s.inWindow i := rfl
@[simp] theorem State.setData_ia (s : State) (a v : Word) : (s.setData a v).ia = s.ia := rfl

@[simp] theorem State.raised_reg (s : State) (k : FaultKind) (a : Word) (q : RegId) : (s.raised k a).reg q = s.reg q := rfl
@[simp] theorem State.raised_dataWord (s : State) (k : FaultKind) (a : Word) (i : Word) : (s.raised k a).dataWord i = s.dataWord i := rfl
@[simp] theorem State.raised_textWord (s : State) (k : FaultKind) (a : Word) (i : Word) : (s.raised k a).textWord i = s.textWord i := rfl
@[simp] theorem State.raised_inWindow (s : State) (k : FaultKind) (a : Word) (i : Word) : (s.raised k a).inWindow i = s.inWindow i := rfl
@[simp] theorem State.raised_ia (s : State) (k : FaultKind) (a : Word) : (s.raised k a).ia = s.ia := rfl

@[simp] theorem State.setPc_ia (s : State) (v : Word) : (s.setPc v).ia = v - 1#32 := rfl

/-- Reading the register just written. -/
@[simp] theorem State.reg_setReg_same (s : State) (r : RegId) (v : Word) : (s.setReg r v).reg r = v := by
  simp [State.reg]

/-- Writing a register leaves every other one alone. -/
theorem State.reg_setReg_of_ne (s : State) {r q : RegId} (v : Word) (h : q ≠ r) : (s.setReg r v).reg q = s.reg q := by
  have hn : r.toNat ≠ q.toNat := fun e => h (BitVec.eq_of_toNat_eq e.symm)
  simp [State.reg, hn]

/-- Every register read after a write, at once. -/
theorem State.reg_setReg (s : State) (r q : RegId) (v : Word) :
    (s.setReg r v).reg q = if q = r then v else s.reg q := by
  by_cases h : q = r
  · simp [h]
  · simp [h, s.reg_setReg_of_ne v h]

/-- `set_cc` is a write of cc (R133). -/
theorem setCcFrom_eq (v : Word) (s : State) : setCcFrom v s = s.setCc (classify v) := rfl

end Sys2Proof.Machine
end

