-- ==== Sys2Proof/Laws/Memory.lean ====
section
/-! SUPPORT. The word arrays: a read after a write, the canonical form and its uniqueness. -/

namespace Sys2Proof.Machine

/-! ## Reading -/

theorem Memory.read_erase (m : Memory) (a b : Nat) :
    (m.erase a).read b = if b = a then Memory.unlisted else m.read b := by
  induction m with
  | nil => simp [Memory.erase, Memory.read]
  | cons c m ih =>
    obtain ⟨k, w⟩ := c
    by_cases hk : a = k
    · by_cases hb : b = a
      · simp_all [Memory.erase]
      · simp_all [Memory.erase, Memory.read]
    · by_cases hb : b = k
      · simp [Memory.erase, Memory.read, hk, hb, Ne.symm hk]
      · simp [Memory.erase, Memory.read, hk, hb, ih]

theorem Memory.read_insert_erase (m : Memory) (a b : Nat) (v : Word) :
    ((m.erase a).insert a v).read b = if b = a then v else m.read b := by
  induction m with
  | nil => simp [Memory.erase, Memory.insert, Memory.read]
  | cons c m ih =>
    obtain ⟨k, w⟩ := c
    by_cases hk : a = k
    · by_cases hb : b = k
      · simp_all [Memory.erase]
      · simp_all [Memory.erase, Memory.read]
    · by_cases hlt : a < k
      · by_cases hb : b = a
        · simp [Memory.erase, Memory.insert, Memory.read, hk, hlt, hb]
        · have he := Memory.read_erase m a b
          by_cases hbk : b = k <;> simp_all [Memory.erase, Memory.insert, Memory.read]
      · by_cases hbk : b = k
        · simp [Memory.erase, Memory.insert, Memory.read, hk, hlt, hbk, Ne.symm hk]
        · simp [Memory.erase, Memory.insert, Memory.read, hk, hlt, hbk, ih]

/-- A write sets the word at its index and changes no other, whatever the list holds. -/
theorem Memory.read_write (m : Memory) (a b : Nat) (v : Word) :
    (m.write a v).read b = if b = a then v else m.read b := by
  by_cases hv : v = Memory.unlisted
  · simp [Memory.write, hv, Memory.read_erase]
  · simp [Memory.write, hv, Memory.read_insert_erase]

/-- `MemWrite` then `MemRead` of the same index (20_memory.md R56, R59). -/
@[simp] theorem State.dataWord_setData_same (s : State) (a v : Word) : (s.setData a v).dataWord a = v := by
  simp [State.dataWord, Memory.read_write]

/-- `MemWrite` changes no other cell (20_memory.md R56). -/
theorem State.dataWord_setData_of_ne (s : State) {a b : Word} (v : Word) (h : b ≠ a) :
    (s.setData a v).dataWord b = s.dataWord b := by
  have hn : b.toNat ≠ a.toNat := fun e => h (BitVec.eq_of_toNat_eq e)
  simp [State.dataWord, Memory.read_write, hn]

/-- Every read after a write, at once. -/
theorem State.dataWord_setData (s : State) (a b v : Word) :
    (s.setData a v).dataWord b = if b = a then v else s.dataWord b := by
  by_cases h : b = a
  · simp [h]
  · simp [h, s.dataWord_setData_of_ne v h]

/-- Writing the word a cell holds changes no read. -/
theorem State.dataWord_setData_self (s : State) (a b : Word) : (s.setData a (s.dataWord a)).dataWord b = s.dataWord b := by
  by_cases h : b = a
  · simp [h]
  · exact s.dataWord_setData_of_ne _ h

/-! ## The canonical form -/

theorem Memory.wfFrom_mono {size lo lo' : Nat} {m : Memory} (h : Memory.wfFrom size lo m = true) (hle : lo' ≤ lo) :
    Memory.wfFrom size lo' m = true := by
  cases m with
  | nil => rfl
  | cons c m =>
    obtain ⟨k, w⟩ := c
    simp only [Memory.wfFrom, Bool.and_eq_true, decide_eq_true_eq] at h ⊢
    exact ⟨⟨⟨by omega, h.1.1.2⟩, h.1.2⟩, h.2⟩

theorem Memory.wfFrom_erase {size : Nat} (a : Nat) :
    ∀ {m : Memory} {lo : Nat}, Memory.wfFrom size lo m = true → Memory.wfFrom size lo (m.erase a) = true
  | [], _, _ => rfl
  | (k, w) :: m, lo, h => by
    simp only [Memory.wfFrom, Bool.and_eq_true, decide_eq_true_eq] at h
    have ih := Memory.wfFrom_erase a h.2
    by_cases hk : a = k
    · simp only [Memory.erase, hk, if_true]
      exact Memory.wfFrom_mono (hk ▸ ih) (by omega)
    · simp only [Memory.erase, hk, if_false, Memory.wfFrom, Bool.and_eq_true, decide_eq_true_eq]
      exact ⟨h.1, ih⟩

theorem Memory.wfFrom_insert_erase {size a : Nat} {v : Word} (hv : v ≠ Memory.unlisted) (ha : a < size) :
    ∀ {m : Memory} {lo : Nat}, lo ≤ a → Memory.wfFrom size lo m = true →
      Memory.wfFrom size lo ((m.erase a).insert a v) = true
  | [], lo, hlo, _ => by simp [Memory.erase, Memory.insert, Memory.wfFrom, hlo, ha, hv]
  | (k, w) :: m, lo, hlo, h => by
    simp only [Memory.wfFrom, Bool.and_eq_true, decide_eq_true_eq] at h
    obtain ⟨⟨⟨h1, h2⟩, h3⟩, h4⟩ := h
    by_cases hk : a = k
    · simp only [Memory.erase, hk, if_true]
      exact hk ▸ Memory.wfFrom_insert_erase hv ha hlo (Memory.wfFrom_mono h4 (by omega))
    · simp only [Memory.erase, hk, if_false, Memory.insert]
      by_cases hlt : a < k
      · simp only [hlt, if_true, Memory.wfFrom, Bool.and_eq_true, decide_eq_true_eq]
        exact ⟨⟨⟨hlo, ha⟩, hv⟩, ⟨⟨by omega, h2⟩, h3⟩, Memory.wfFrom_erase a h4⟩
      · simp only [hlt, if_false, Memory.wfFrom, Bool.and_eq_true, decide_eq_true_eq]
        exact ⟨⟨⟨h1, h2⟩, h3⟩, Memory.wfFrom_insert_erase hv ha (by omega) h4⟩

/-- A write inside the array keeps the canonical form. -/
theorem Memory.wf_write {size a : Nat} {m : Memory} (v : Word) (h : m.wf size = true) (ha : a < size) :
    (m.write a v).wf size = true := by
  by_cases hv : v = Memory.unlisted
  · simp only [Memory.write, hv, if_true]
    exact Memory.wfFrom_erase a h
  · simp only [Memory.write, hv, if_false]
    exact Memory.wfFrom_insert_erase hv ha (Nat.zero_le _) h

theorem Memory.wfFrom_size_mono {size size' : Nat} (hle : size ≤ size') :
    ∀ {m : Memory} {lo : Nat}, Memory.wfFrom size lo m = true → Memory.wfFrom size' lo m = true
  | [], _, _ => rfl
  | (k, w) :: m, lo, h => by
    simp only [Memory.wfFrom, Bool.and_eq_true, decide_eq_true_eq] at h ⊢
    exact ⟨⟨⟨h.1.1.1, by omega⟩, h.1.2⟩, Memory.wfFrom_size_mono hle h.2⟩

theorem Memory.wfFrom_ofWordsAt :
    ∀ (ws : List Word) (a size : Nat), a + ws.length ≤ size → Memory.wfFrom size a (Memory.ofWordsAt a ws) = true
  | [], _, _, _ => rfl
  | w :: ws, a, size, h => by
    simp only [List.length_cons] at h
    have ih := Memory.wfFrom_ofWordsAt ws (a + 1) size (by omega)
    by_cases hw : w = Memory.unlisted
    · simp only [Memory.ofWordsAt, hw, if_true]
      exact Memory.wfFrom_mono ih (by omega)
    · simp only [Memory.ofWordsAt, hw, if_false, Memory.wfFrom, Bool.and_eq_true, decide_eq_true_eq]
      exact ⟨⟨⟨le_refl _, by omega⟩, hw⟩, ih⟩

/-- The array of a list of words is in canonical form. -/
theorem Memory.wf_ofWords (ws : List Word) (size : Nat) (h : ws.length ≤ size) : (Memory.ofWords ws).wf size = true :=
  Memory.wfFrom_ofWordsAt ws 0 size (by omega)

/-- The reset state's arrays are in canonical form. -/
theorem reset_memories_wf :
    State.reset.text.wf State.reset.textSize.toNat = true ∧ State.reset.data.wf State.reset.dataSize.toNat = true := by
  decide

theorem Memory.read_ofWordsAt :
    ∀ (ws : List Word) (a i : Nat),
      (Memory.ofWordsAt a ws).read i = if a ≤ i then ws.getD (i - a) Memory.unlisted else Memory.unlisted
  | [], a, i => by simp [Memory.ofWordsAt, Memory.read]
  | w :: ws, a, i => by
    have ih := Memory.read_ofWordsAt ws (a + 1) i
    by_cases hi : i = a
    · subst hi
      by_cases hw : w = Memory.unlisted
      · simp [Memory.ofWordsAt, hw, ih]
      · simp [Memory.ofWordsAt, hw, Memory.read]
    · have hshift : ∀ n, i - a = n → a ≤ i → ∃ k, n = k + 1 ∧ i - (a + 1) = k := fun n hn hle =>
        ⟨i - (a + 1), by omega, rfl⟩
      by_cases hle : a ≤ i
      · obtain ⟨k, hk, hk'⟩ := hshift _ rfl hle
        have hle' : a + 1 ≤ i := by omega
        by_cases hw : w = Memory.unlisted
        · simp [Memory.ofWordsAt, hw, ih, hle, hle', hk, hk']
        · simp [Memory.ofWordsAt, hw, Memory.read, hi, ih, hle, hle', hk, hk']
      · have hle' : ¬ a + 1 ≤ i := by omega
        by_cases hw : w = Memory.unlisted
        · simp [Memory.ofWordsAt, hw, ih, hle, hle']
        · simp [Memory.ofWordsAt, hw, Memory.read, hi, ih, hle, hle']

/-- The array of a list of words reads as the list. -/
theorem Memory.read_ofWords (ws : List Word) (i : Nat) :
    (Memory.ofWords ws).read i = ws.getD i Memory.unlisted := by
  simp [Memory.ofWords, Memory.read_ofWordsAt]

theorem Memory.read_eq_unlisted_of_wfFrom {size : Nat} :
    ∀ {m : Memory} {lo i : Nat}, Memory.wfFrom size lo m = true → i < lo → m.read i = Memory.unlisted
  | [], _, _, _, _ => rfl
  | (k, w) :: m, lo, i, h, hi => by
    simp only [Memory.wfFrom, Bool.and_eq_true, decide_eq_true_eq] at h
    have hne : i ≠ k := by omega
    simp only [Memory.read, hne, if_false]
    exact Memory.read_eq_unlisted_of_wfFrom h.2 (by omega)

theorem Memory.eq_of_read_eq_from {size : Nat} :
    ∀ {m m' : Memory} {lo : Nat}, Memory.wfFrom size lo m = true → Memory.wfFrom size lo m' = true →
      (∀ i, m.read i = m'.read i) → m = m'
  | [], [], _, _, _, _ => rfl
  | [], (k, w) :: m', lo, _, h', hr => by
    simp only [Memory.wfFrom, Bool.and_eq_true, decide_eq_true_eq] at h'
    exact absurd (by simpa [Memory.read] using (hr k).symm) h'.1.2
  | (k, w) :: m, [], lo, h, _, hr => by
    simp only [Memory.wfFrom, Bool.and_eq_true, decide_eq_true_eq] at h
    exact absurd (by simpa [Memory.read] using hr k) h.1.2
  | (k, w) :: m, (k', w') :: m', lo, h, h', hr => by
    simp only [Memory.wfFrom, Bool.and_eq_true, decide_eq_true_eq] at h h'
    have hk : k = k' := by
      by_contra hne
      rcases Nat.lt_or_gt_of_ne hne with hlt | hlt
      · have := hr k
        simp only [Memory.read, if_true, hne, if_false] at this
        exact h.1.2 (this.trans (Memory.read_eq_unlisted_of_wfFrom h'.2 (by omega)))
      · have := hr k'
        simp only [Memory.read, if_true, Ne.symm hne, if_false] at this
        exact h'.1.2 (this.symm.trans (Memory.read_eq_unlisted_of_wfFrom h.2 (by omega)))
    subst hk
    have hw : w = w' := by simpa [Memory.read] using hr k
    subst hw
    have ht : m = m' := by
      refine Memory.eq_of_read_eq_from h.2 h'.2 fun i => ?_
      by_cases hi : i = k
      · rw [Memory.read_eq_unlisted_of_wfFrom h.2 (by omega), Memory.read_eq_unlisted_of_wfFrom h'.2 (by omega)]
      · simpa [Memory.read, hi] using hr i
    rw [ht]

/-- Canonical arrays that read alike are equal. -/
theorem Memory.eq_of_read_eq {size : Nat} {m m' : Memory} (h : m.wf size = true) (h' : m'.wf size = true)
    (hr : ∀ i, m.read i = m'.read i) : m = m' :=
  Memory.eq_of_read_eq_from h h' hr

end Sys2Proof.Machine
end

