-- ==== Sys2Proof/Laws/Ops.lean ====
section
/-! SUPPORT. One lemma for each shared operation, saying once everything it can answer. Proofs cite these and do not
unfold the operation. -/

namespace Sys2Proof.Machine

@[simp] theorem finish_ok (s : State) : finish (.ok s) = .next s := rfl
@[simp] theorem finish_error (r : Result) : finish (.error r) = r := rfl
@[simp] theorem Phase.ok_bind {α β : Type} (a : α) (f : α → Phase β) : ((Except.ok a : Phase α) >>= f) = f a := rfl
@[simp] theorem Phase.error_bind {α β : Type} (r : Result) (f : α → Phase β) :
    ((Except.error r : Phase α) >>= f) = Except.error r := rfl
@[simp] theorem Phase.pure_eq {α : Type} (a : α) : (pure a : Phase α) = Except.ok a := rfl

/-- A raise answers the faulted state at ia, and nothing else. -/
theorem raise_eq {α : Type} (k : FaultKind) (s : State) : (raise k s : Phase α) = .error (.next (s.raised k s.ia)) := rfl

/-! ## Checks and accesses -/

theorem memRead_eq (a : Word) (s : State) :
    memRead a s = if a < s.dataSize then .ok (s.dataWord a) else .error (.fault .dataIndex) := rfl

theorem memWrite_eq (a v : Word) (s : State) :
    memWrite a v s = if a < s.dataSize then .ok (s.setData a v) else .error (.fault .dataIndex) := rfl

theorem checkData_eq (a : Word) (s : State) :
    checkData a s = if a < s.dataSize then .ok () else .error (.next (s.raised .segmentData s.ia)) := rfl

theorem checkTextTarget_eq (a : Word) (s : State) :
    checkTextTarget a s = if a < s.textSize then .ok () else .error (.next (s.raised .segmentText s.ia)) := rfl

theorem checkStack_eq (s : State) :
    checkStack s = if s.inWindow s.sp then .ok () else .error (.next (s.raised .segmentStack s.ia)) := rfl

theorem State.inWindow_iff (s : State) (sp : Word) : s.inWindow sp = true ↔ s.dataEnd ≤ sp ∧ sp < s.dataSize := by
  simp [State.inWindow]

theorem State.not_inWindow_iff (s : State) (sp : Word) :
    s.inWindow sp = false ↔ sp < s.dataEnd ∨ s.dataSize ≤ sp := by
  simp only [State.inWindow, decide_eq_false_iff_not, not_and_or, BitVec.not_le, BitVec.not_lt]

/-- A push (R135): the write at the old sp, the fault with sp decremented, or, in a state no run reaches, an access
outside the array. -/
theorem push_eq (v : Word) (s : State) :
    push v s =
      if s.inWindow (s.sp - 1#32) then
        if s.sp < s.dataSize then .ok ((s.setSp (s.sp - 1#32)).setData s.sp v) else .error (.fault .dataIndex)
      else .error (.next ((s.setSp (s.sp - 1#32)).raised .segmentStack s.ia)) := by
  by_cases h : s.inWindow (s.sp - 1#32) = true
  · by_cases hs : s.sp < s.dataSize <;> simp [push, checkStack_eq, memWrite_eq, h, hs]
  · simp [push, checkStack_eq, h]

/-- A pop (R136): the word at the new sp, or the fault with sp incremented; it never leaves the array. -/
theorem pop_eq (s : State) :
    pop s =
      if s.inWindow (s.sp + 1#32) then .ok (s.dataWord (s.sp + 1#32), s.setSp (s.sp + 1#32))
      else .error (.next ((s.setSp (s.sp + 1#32)).raised .segmentStack s.ia)) := by
  by_cases h : s.inWindow (s.sp + 1#32) = true
  · have hlt : s.sp + 1#32 < s.dataSize := ((s.inWindow_iff _).1 h).2
    simp [pop, checkStack_eq, memRead_eq, h, hlt]
  · simp [pop, checkStack_eq, h]

/-- The fetch (R120, R121): the word and the incremented pc, or Segment-Text with pc as it was. -/
theorem fetch_eq (s : State) :
    fetch s = if s.pc < s.textSize then .ok (s.textWord s.pc, s.setPc (s.pc + 1#32))
      else .error (.next (s.raised .segmentText (fetchFaultAddr segTextReport s.pc))) := rfl

/-! ## Operands and conditions -/

@[simp] theorem resolveAddress_absolute (a : Word) (s : State) : resolveAddress (.absolute a) s = a := rfl

@[simp] theorem resolveAddress_indexed (b : RegId) (o : Word) (s : State) :
    resolveAddress (.indexed b o) s = s.reg b + o := rfl

@[simp] theorem resolveValue_immediate (v : Word) (s : State) : resolveValue (.immediate v) s = .ok v := rfl

/-- A memory operand (R127): its word, or Segment-Data at ia; it never leaves the array. -/
theorem resolveValue_address (o : AddrOperand) (s : State) :
    resolveValue (.address o) s =
      if resolveAddress o s < s.dataSize then .ok (s.dataWord (resolveAddress o s))
      else .error (.next (s.raised .segmentData s.ia)) := by
  by_cases h : resolveAddress o s < s.dataSize <;> simp [resolveValue, checkData_eq, memRead_eq, h]

@[simp] theorem checkImmediate_immediate (v : Word) (s : State) :
    checkImmediate (.immediate v) s = .error (.next (s.raised .immediateValue s.ia)) := rfl

@[simp] theorem checkImmediate_address (o : AddrOperand) (s : State) : checkImmediate (.address o) s = .ok o := rfl

theorem checkCondition_eq (c : BitVec 4) (s : State) :
    checkCondition c s = match condOfField c with
      | some k => .ok (condHolds k s.cc)
      | none => .error (.next (s.raised .illegalCondition s.ia)) := rfl

/-- The values 7..15 of the condition field name no condition (R90). -/
theorem condOfField_eq_none_iff (c : BitVec 4) : condOfField c = none ↔ 7 ≤ c.toNat := by
  revert c; decide

/-! ## Handlers -/

theorem loadValue_immediate (rd : RegId) (v : Word) (s : State) :
    loadValue rd (.immediate v) s = .next ((s.setReg rd v).setCc (classify v)) := rfl

theorem loadValue_address (rd : RegId) (o : AddrOperand) (s : State) :
    loadValue rd (.address o) s =
      if resolveAddress o s < s.dataSize then
        .next ((s.setReg rd (s.dataWord (resolveAddress o s))).setCc (classify (s.dataWord (resolveAddress o s))))
      else .next (s.raised .segmentData s.ia) := by
  by_cases h : resolveAddress o s < s.dataSize <;> simp [loadValue, resolveValue_address, h, setCcFrom_eq]

theorem arith_immediate (op : Word → Word → Word) (rd : RegId) (v : Word) (s : State) :
    arith op rd (.immediate v) s = .next ((s.setReg rd (op (s.reg rd) v)).setCc (classify (op (s.reg rd) v))) := rfl

theorem arith_address (op : Word → Word → Word) (rd : RegId) (o : AddrOperand) (s : State) :
    arith op rd (.address o) s =
      if resolveAddress o s < s.dataSize then
        .next ((s.setReg rd (op (s.reg rd) (s.dataWord (resolveAddress o s)))).setCc
          (classify (op (s.reg rd) (s.dataWord (resolveAddress o s)))))
      else .next (s.raised .segmentData s.ia) := by
  by_cases h : resolveAddress o s < s.dataSize <;> simp [arith, resolveValue_address, h, setCcFrom_eq]

theorem storeWord_immediate (rs : RegId) (v : Word) (s : State) :
    storeWord rs (.immediate v) s = .next (s.raised .immediateValue s.ia) := rfl

theorem storeWord_address (rs : RegId) (o : AddrOperand) (s : State) :
    storeWord rs (.address o) s =
      if resolveAddress o s < s.dataSize then .next (s.setData (resolveAddress o s) (s.reg rs))
      else .next (s.raised .segmentData s.ia) := by
  by_cases h : resolveAddress o s < s.dataSize <;> simp [storeWord, checkData_eq, memWrite_eq, h]

theorem branchTo_immediate (c : BitVec 4) (v : Word) (s : State) :
    branchTo c (.immediate v) s = .next (s.raised .immediateValue s.ia) := rfl

theorem branchTo_address (c : BitVec 4) (o : AddrOperand) (s : State) :
    branchTo c (.address o) s = match condOfField c with
      | none => .next (s.raised .illegalCondition s.ia)
      | some k =>
        if condHolds k s.cc then
          if resolveAddress o s < s.textSize then .next (s.setPc (resolveAddress o s))
          else .next (s.raised .segmentText s.ia)
        else .next s := by
  cases hc : condOfField c with
  | none => simp [branchTo, checkCondition_eq, hc]
  | some k =>
    by_cases hk : condHolds k s.cc = true
    · by_cases h : resolveAddress o s < s.textSize <;> simp [branchTo, checkCondition_eq, checkTextTarget_eq, hc, hk, h]
    · simp [branchTo, checkCondition_eq, hc, hk]

theorem callTo_immediate (c : BitVec 4) (v : Word) (s : State) :
    callTo c (.immediate v) s = .next (s.raised .immediateValue s.ia) := rfl

theorem callTo_address (c : BitVec 4) (o : AddrOperand) (s : State) :
    callTo c (.address o) s = match condOfField c with
      | none => .next (s.raised .illegalCondition s.ia)
      | some k =>
        if condHolds k s.cc then
          if s.inWindow (s.sp - 1#32) then
            if s.sp < s.dataSize then
              .next (((s.setSp (s.sp - 1#32)).setData s.sp s.pc).setPc (resolveAddress o s))
            else .fault .dataIndex
          else .next ((s.setSp (s.sp - 1#32)).raised .segmentStack s.ia)
        else .next s := by
  cases hc : condOfField c with
  | none => simp [callTo, checkCondition_eq, hc]
  | some k =>
    by_cases hk : condHolds k s.cc = true
    · by_cases hw : s.inWindow (s.sp - 1#32) = true
      · by_cases h : s.sp < s.dataSize <;> simp [callTo, checkCondition_eq, push_eq, hc, hk, hw, h]
      · simp [callTo, checkCondition_eq, push_eq, hc, hk, hw]
    · simp [callTo, checkCondition_eq, hc, hk]

theorem retPop_eq (s : State) :
    retPop s = if s.inWindow (s.sp + 1#32) then .next ((s.setSp (s.sp + 1#32)).setPc (s.dataWord (s.sp + 1#32)))
      else .next ((s.setSp (s.sp + 1#32)).raised .segmentStack s.ia) := by
  by_cases h : s.inWindow (s.sp + 1#32) = true <;> simp [retPop, pop_eq, h]

theorem pushValue_immediate (v : Word) (s : State) : pushValue (.immediate v) s = finish (push v s) := rfl

theorem pushValue_address (o : AddrOperand) (s : State) :
    pushValue (.address o) s =
      if resolveAddress o s < s.dataSize then finish (push (s.dataWord (resolveAddress o s)) s)
      else .next (s.raised .segmentData s.ia) := by
  by_cases h : resolveAddress o s < s.dataSize <;> simp [pushValue, resolveValue_address, h]

/-- A push that ends its instruction. -/
theorem finish_push (v : Word) (s : State) :
    finish (push v s) =
      if s.inWindow (s.sp - 1#32) then
        if s.sp < s.dataSize then .next ((s.setSp (s.sp - 1#32)).setData s.sp v) else .fault .dataIndex
      else .next ((s.setSp (s.sp - 1#32)).raised .segmentStack s.ia) := by
  by_cases hw : s.inWindow (s.sp - 1#32) = true
  · by_cases h : s.sp < s.dataSize <;> simp [push_eq, hw, h]
  · simp [push_eq, hw]

theorem popTo_immediate (v : Word) (s : State) :
    popTo (.immediate v) s = .next (s.raised .immediateValue s.ia) := rfl

theorem popTo_address (o : AddrOperand) (s : State) :
    popTo (.address o) s =
      if resolveAddress o s < s.dataSize then
        if s.inWindow (s.sp + 1#32) then
          .next ((s.setSp (s.sp + 1#32)).setData (resolveAddress o s) (s.dataWord (s.sp + 1#32)))
        else .next ((s.setSp (s.sp + 1#32)).raised .segmentStack s.ia)
      else .next (s.raised .segmentData s.ia) := by
  by_cases h : resolveAddress o s < s.dataSize
  · by_cases hw : s.inWindow (s.sp + 1#32) = true <;> simp [popTo, checkData_eq, pop_eq, memWrite_eq, h, hw]
  · simp [popTo, checkData_eq, h]

/-! ## The step -/

theorem step_running {s : State} (h : s.run = .running) : step s = cycle s := by simp [step, stepRequest, h]

/-- A cycle (R120): the decoded instruction on the state after the fetch, or Segment-Text. -/
theorem cycle_eq (s : State) :
    cycle s = if s.pc < s.textSize then exec (decode (s.textWord s.pc)) (s.setPc (s.pc + 1#32))
      else .next (s.raised .segmentText (fetchFaultAddr segTextReport s.pc)) := by
  by_cases h : s.pc < s.textSize <;> simp [cycle, fetch_eq, h]

end Sys2Proof.Machine
end

