-- ==== Sys2Proof/Laws/Exec.lean ====
section
/-! SUPPORT. Says once what an instruction can leave: `exec_leaves` is the inversion of exec, from which invariants and
frames follow by a short case analysis with no unfolding. -/

namespace Sys2Proof.Machine

open Sys2Proof.Safety

/-- What a state left by an instruction looks like, with what each look implies. -/
inductive Leaves (i : Instr) (s : State) : State → Prop where
  /-- NOP, and a BRANCH or CALL not taken -/
  | unchanged (hd : destReg i = none) : Leaves i s s
  /-- LOAD, ADD, SUB -/
  | register (rd : RegId) (v : Word) (hd : destReg i = some rd) (ht : transfers i = false) :
      Leaves i s ((s.setReg rd v).setCc (classify v))
  /-- STORE -/
  | stored (a v : Word) (hd : destReg i = none) (ht : transfers i = false) (ha : a < s.dataSize)
      (hs : storedAddress i s = some a) : Leaves i s (s.setData a v)
  /-- a taken BRANCH -/
  | jumped (a : Word) (hd : destReg i = none) (ht : transfers i = true) : Leaves i s (s.setPc a)
  /-- PUSH -/
  | pushed (v : Word) (hd : destReg i = none) (ht : transfers i = false) (hw : s.inWindow (s.sp - 1#32) = true)
      (ha : s.sp < s.dataSize) (hs : storedAddress i s = some s.sp) :
      Leaves i s ((s.setSp (s.sp - 1#32)).setData s.sp v)
  /-- a taken CALL -/
  | called (a : Word) (hd : destReg i = none) (ht : transfers i = true) (hw : s.inWindow (s.sp - 1#32) = true)
      (ha : s.sp < s.dataSize) (hs : storedAddress i s = some s.sp) :
      Leaves i s (((s.setSp (s.sp - 1#32)).setData s.sp s.pc).setPc a)
  /-- POP -/
  | popped (a v : Word) (hd : destReg i = none) (ht : transfers i = false) (hw : s.inWindow (s.sp + 1#32) = true)
      (ha : a < s.dataSize) (hs : storedAddress i s = some a) : Leaves i s ((s.setSp (s.sp + 1#32)).setData a v)
  /-- RET -/
  | returned (v : Word) (hd : destReg i = none) (ht : transfers i = true) (hw : s.inWindow (s.sp + 1#32) = true) :
      Leaves i s ((s.setSp (s.sp + 1#32)).setPc v)
  /-- HALT -/
  | halted (hi : i = .halt) : Leaves i s (s.setRun .halted)
  /-- a fault other than Segment-Stack -/
  | raised (k : FaultKind) (hk : k ∈ canRaise i) (hn : k ≠ .segmentStack) : Leaves i s (s.raised k s.ia)
  /-- Segment-Stack -/
  | raisedStack (sp' : Word) (hk : .segmentStack ∈ canRaise i) (ha : adjustedSp i s = some sp')
      (hsp : sp' = s.sp - 1#32 ∨ sp' = s.sp + 1#32) (hw : s.inWindow sp' = false) :
      Leaves i s ((s.setSp sp').raised .segmentStack s.ia)

theorem load_leaves {i : Instr} {rd : RegId} {o : AddrOperand} {s t : State} (hd : destReg i = some rd)
    (ht : transfers i = false) (hk : .segmentData ∈ canRaise i) (h : loadValue rd (.address o) s = .next t) :
    Leaves i s t := by
  rw [loadValue_address] at h
  split at h <;> cases h
  · exact .register rd _ hd ht
  · exact .raised _ hk (by decide)

theorem arith_leaves {op : Word → Word → Word} {i : Instr} {rd : RegId} {o : AddrOperand} {s t : State}
    (hd : destReg i = some rd) (ht : transfers i = false) (hk : .segmentData ∈ canRaise i)
    (h : arith op rd (.address o) s = .next t) : Leaves i s t := by
  rw [arith_address] at h
  split at h <;> cases h
  · exact .register rd _ hd ht
  · exact .raised _ hk (by decide)

theorem store_leaves {i : Instr} {rs : RegId} {o : AddrOperand} {s t : State} (hd : destReg i = none)
    (ht : transfers i = false) (hk : .segmentData ∈ canRaise i)
    (hs : storedAddress i s = some (resolveAddress o s)) (h : storeWord rs (.address o) s = .next t) :
    Leaves i s t := by
  rw [storeWord_address] at h
  split at h <;> cases h
  · exact .stored _ _ hd ht ‹_› hs
  · exact .raised _ hk (by decide)

theorem branch_leaves {i : Instr} {c : BitVec 4} {o : AddrOperand} {s t : State} (hd : destReg i = none)
    (ht : transfers i = true) (hk : canRaise i = [.illegalCondition, .segmentText])
    (h : branchTo c (.address o) s = .next t) : Leaves i s t := by
  rw [branchTo_address] at h
  split at h
  · cases h; exact .raised _ (by simp [hk]) (by decide)
  · split at h
    · split at h <;> cases h
      · exact .jumped _ hd ht
      · exact .raised _ (by simp [hk]) (by decide)
    · cases h; exact .unchanged hd

theorem call_leaves {i : Instr} {c : BitVec 4} {o : AddrOperand} {s t : State} (hd : destReg i = none)
    (ht : transfers i = true) (hk : canRaise i = [.illegalCondition, .segmentStack])
    (hs : storedAddress i s = some s.sp)
    (ha : adjustedSp i s = if (condOfField c).any (condHolds · s.cc) then some (s.sp - 1#32) else none)
    (h : callTo c (.address o) s = .next t) : Leaves i s t := by
  rw [callTo_address] at h
  split at h
  · cases h; exact .raised _ (by simp [hk]) (by decide)
  · rename_i k hc
    split at h
    · rename_i hk'
      split at h
      · split at h <;> cases h
        exact .called _ hd ht ‹_› ‹_› hs
      · cases h
        exact .raisedStack _ (by simp [hk]) (by simp [ha, hc, hk']) (.inl rfl) (Bool.eq_false_iff.2 ‹_›)
    · cases h; exact .unchanged hd

theorem push_leaves {i : Instr} {v : Word} {s t : State} (hd : destReg i = none) (ht : transfers i = false)
    (hk : .segmentStack ∈ canRaise i) (hs : storedAddress i s = some s.sp) (ha : adjustedSp i s = some (s.sp - 1#32))
    (h : finish (push v s) = .next t) : Leaves i s t := by
  rw [finish_push] at h
  split at h
  · split at h <;> cases h
    exact .pushed _ hd ht ‹_› ‹_› hs
  · cases h
    exact .raisedStack _ hk ha (.inl rfl) (Bool.eq_false_iff.2 ‹_›)

theorem pushAddress_leaves {i : Instr} {o : AddrOperand} {s t : State} (hd : destReg i = none)
    (ht : transfers i = false) (hk : canRaise i = [.segmentData, .segmentStack])
    (hs : storedAddress i s = some s.sp)
    (ha : adjustedSp i s = if resolveAddress o s < s.dataSize then some (s.sp - 1#32) else none)
    (h : pushValue (.address o) s = .next t) : Leaves i s t := by
  rw [pushValue_address] at h
  split at h
  · exact push_leaves hd ht (by simp [hk]) hs (by simp [*]) h
  · cases h; exact .raised _ (by simp [hk]) (by decide)

theorem pop_leaves {i : Instr} {o : AddrOperand} {s t : State} (hd : destReg i = none) (ht : transfers i = false)
    (hk : canRaise i = [.segmentData, .segmentStack]) (hs : storedAddress i s = some (resolveAddress o s))
    (ha : adjustedSp i s = if resolveAddress o s < s.dataSize then some (s.sp + 1#32) else none)
    (h : popTo (.address o) s = .next t) : Leaves i s t := by
  rw [popTo_address] at h
  split at h
  · rename_i hlt
    split at h <;> cases h
    · exact .popped _ _ hd ht ‹_› hlt hs
    · exact .raisedStack _ (by simp [hk]) (by simp [ha, hlt]) (.inr rfl) (Bool.eq_false_iff.2 ‹_›)
  · cases h; exact .raised _ (by simp [hk]) (by decide)

theorem ret_leaves {s t : State} (h : retPop s = .next t) : Leaves .ret s t := by
  rw [retPop_eq] at h
  split at h <;> cases h
  · exact .returned _ rfl rfl ‹_›
  · exact .raisedStack _ (by simp [canRaise]) rfl (.inr rfl) (Bool.eq_false_iff.2 ‹_›)

theorem raise_leaves {i : Instr} {k : FaultKind} {s t : State} (hk : k ∈ canRaise i) (hn : k ≠ .segmentStack)
    (h : (.next (s.raised k s.ia) : Result) = .next t) : Leaves i s t := by
  cases h; exact .raised k hk hn

/-- The inversion of exec: what an instruction that answers a next state leaves. -/
theorem exec_leaves {i : Instr} {s t : State} (h : exec i s = .next t) : Leaves i s t := by
  cases i with
  | illop => exact raise_leaves (by simp [canRaise]) (by decide) h
  | nop => cases h; exact .unchanged rfl
  | loadImm rd v => cases h; exact .register rd v rfl rfl
  | loadAbs rd a => exact load_leaves rfl rfl (by simp [canRaise]) h
  | loadIdx rd b o => exact load_leaves rfl rfl (by simp [canRaise]) h
  | storeImm rs v => exact raise_leaves (k := .immediateValue) (by simp [canRaise]) (by decide) h
  | storeAbs rs a => exact store_leaves rfl rfl (by simp [canRaise]) rfl h
  | storeIdx rs b o => exact store_leaves rfl rfl (by simp [canRaise]) rfl h
  | addImm rd v => cases h; exact .register rd _ rfl rfl
  | addAbs rd a => exact arith_leaves rfl rfl (by simp [canRaise]) h
  | addIdx rd b o => exact arith_leaves rfl rfl (by simp [canRaise]) h
  | subImm rd v => cases h; exact .register rd _ rfl rfl
  | subAbs rd a => exact arith_leaves rfl rfl (by simp [canRaise]) h
  | subIdx rd b o => exact arith_leaves rfl rfl (by simp [canRaise]) h
  | branchImm c v => exact raise_leaves (k := .immediateValue) (by simp [canRaise]) (by decide) h
  | branchAbs c a => exact branch_leaves rfl rfl rfl h
  | branchIdx c b o => exact branch_leaves rfl rfl rfl h
  | callImm c v => exact raise_leaves (k := .immediateValue) (by simp [canRaise]) (by decide) h
  | callAbs c a => exact call_leaves rfl rfl rfl rfl rfl h
  | callIdx c b o => exact call_leaves rfl rfl rfl rfl rfl h
  | ret => exact ret_leaves h
  | pushImm v => exact push_leaves rfl rfl (by simp [canRaise]) rfl rfl h
  | pushAbs a => exact pushAddress_leaves rfl rfl rfl rfl rfl h
  | pushIdx b o => exact pushAddress_leaves rfl rfl rfl rfl rfl h
  | popImm v => exact raise_leaves (k := .immediateValue) (by simp [canRaise]) (by decide) h
  | popAbs a => exact pop_leaves rfl rfl rfl rfl rfl h
  | popIdx b o => exact pop_leaves rfl rfl rfl rfl rfl h
  | halt => cases h; exact .halted rfl
  | unknown12 op => exact raise_leaves (k := .unknownInstruction) (by simp [canRaise]) (by decide) h
  | unknown16 op => exact raise_leaves (k := .unknownInstruction) (by simp [canRaise]) (by decide) h
  | unknown32 op => exact raise_leaves (k := .unknownInstruction) (by simp [canRaise]) (by decide) h

/-- A step that answers a next state: the terminal state itself, the fetch fault, or what the decoded instruction
leaves of the state with pc incremented. -/
theorem step_cases {s t : State} (h : step s = .next t) :
    ((s.run = .halted ∨ s.run = .faulted) ∧ t = s) ∨
    (s.run = .running ∧ s.textSize ≤ s.pc ∧ t = s.raised .segmentText (fetchFaultAddr segTextReport s.pc)) ∨
    (s.run = .running ∧ s.pc < s.textSize ∧ exec (decode (s.textWord s.pc)) (s.setPc (s.pc + 1#32)) = .next t) := by
  cases hr : s.run with
  | running =>
    rw [step_running hr, cycle_eq] at h
    split at h
    · exact .inr (.inr ⟨rfl, ‹_›, h⟩)
    · cases h; exact .inr (.inl ⟨rfl, BitVec.not_lt.1 ‹_›, rfl⟩)
  | halted => simp [step, stepRequest, hr] at h; exact .inl ⟨.inl rfl, h.symm⟩
  | faulted => simp [step, stepRequest, hr] at h; exact .inl ⟨.inr rfl, h.symm⟩
  | unloaded => simp [step, stepRequest, hr] at h

end Sys2Proof.Machine
end

