-- ==== Sys2Proof/Laws/PerInstr.lean ====
section
/-! SUPPORT. The per-instruction family OpcodeField: the op field of an instruction's canonical word is the opcode
number of its row (30_encoding.md R89). -/

namespace Sys2Proof.Laws.OpcodeField

/-- The op field of the canonical word of an instruction is its row's opcode number (R89). -/
def Statement (i : Instr) : Prop :=
  opField (encode i) =
    match i with
    | .illop => 0
    | .nop => 1
    | .loadImm _ _ => 2
    | .loadAbs _ _ => 2
    | .loadIdx _ _ _ => 2
    | .storeImm _ _ => 3
    | .storeAbs _ _ => 3
    | .storeIdx _ _ _ => 3
    | .addImm _ _ => 4
    | .addAbs _ _ => 4
    | .addIdx _ _ _ => 4
    | .subImm _ _ => 5
    | .subAbs _ _ => 5
    | .subIdx _ _ _ => 5
    | .branchImm _ _ => 6
    | .branchAbs _ _ => 6
    | .branchIdx _ _ _ => 6
    | .callImm _ _ => 7
    | .callAbs _ _ => 7
    | .callIdx _ _ _ => 7
    | .ret => 8
    | .pushImm _ => 9
    | .pushAbs _ => 9
    | .pushIdx _ _ => 9
    | .popImm _ => 10
    | .popAbs _ => 10
    | .popIdx _ _ => 10
    | .halt => 11
    | .unknown12 op => op
    | .unknown16 op => op
    | .unknown32 op => op

theorem illop : Statement (.illop) := opField_encodeWord _ _ _ _ _
theorem nop : Statement (.nop) := opField_encodeWord _ _ _ _ _
theorem loadImm (rd : RegId) (value : Word) : Statement (.loadImm rd value) := opField_encodeWord _ _ _ _ _
theorem loadAbs (rd : RegId) (address : Word) : Statement (.loadAbs rd address) := opField_encodeWord _ _ _ _ _
theorem loadIdx (rd base : RegId) (offset : Word) : Statement (.loadIdx rd base offset) := opField_encodeWord _ _ _ _ _
theorem storeImm (rs : RegId) (value : Word) : Statement (.storeImm rs value) := opField_encodeWord _ _ _ _ _
theorem storeAbs (rs : RegId) (address : Word) : Statement (.storeAbs rs address) := opField_encodeWord _ _ _ _ _
theorem storeIdx (rs base : RegId) (offset : Word) : Statement (.storeIdx rs base offset) := opField_encodeWord _ _ _ _ _
theorem addImm (rd : RegId) (value : Word) : Statement (.addImm rd value) := opField_encodeWord _ _ _ _ _
theorem addAbs (rd : RegId) (address : Word) : Statement (.addAbs rd address) := opField_encodeWord _ _ _ _ _
theorem addIdx (rd base : RegId) (offset : Word) : Statement (.addIdx rd base offset) := opField_encodeWord _ _ _ _ _
theorem subImm (rd : RegId) (value : Word) : Statement (.subImm rd value) := opField_encodeWord _ _ _ _ _
theorem subAbs (rd : RegId) (address : Word) : Statement (.subAbs rd address) := opField_encodeWord _ _ _ _ _
theorem subIdx (rd base : RegId) (offset : Word) : Statement (.subIdx rd base offset) := opField_encodeWord _ _ _ _ _
theorem branchImm (cond : BitVec 4) (value : Word) : Statement (.branchImm cond value) := opField_encodeWord _ _ _ _ _
theorem branchAbs (cond : BitVec 4) (address : Word) : Statement (.branchAbs cond address) := opField_encodeWord _ _ _ _ _
theorem branchIdx (cond : BitVec 4) (base : RegId) (offset : Word) : Statement (.branchIdx cond base offset) := opField_encodeWord _ _ _ _ _
theorem callImm (cond : BitVec 4) (value : Word) : Statement (.callImm cond value) := opField_encodeWord _ _ _ _ _
theorem callAbs (cond : BitVec 4) (address : Word) : Statement (.callAbs cond address) := opField_encodeWord _ _ _ _ _
theorem callIdx (cond : BitVec 4) (base : RegId) (offset : Word) : Statement (.callIdx cond base offset) := opField_encodeWord _ _ _ _ _
theorem ret : Statement (.ret) := opField_encodeWord _ _ _ _ _
theorem pushImm (value : Word) : Statement (.pushImm value) := opField_encodeWord _ _ _ _ _
theorem pushAbs (address : Word) : Statement (.pushAbs address) := opField_encodeWord _ _ _ _ _
theorem pushIdx (base : RegId) (offset : Word) : Statement (.pushIdx base offset) := opField_encodeWord _ _ _ _ _
theorem popImm (value : Word) : Statement (.popImm value) := opField_encodeWord _ _ _ _ _
theorem popAbs (address : Word) : Statement (.popAbs address) := opField_encodeWord _ _ _ _ _
theorem popIdx (base : RegId) (offset : Word) : Statement (.popIdx base offset) := opField_encodeWord _ _ _ _ _
theorem halt : Statement (.halt) := opField_encodeWord _ _ _ _ _
theorem unknown12 (op : BitVec 6) : Statement (.unknown12 op) := opField_encodeWord _ _ _ _ _
theorem unknown16 (op : BitVec 6) : Statement (.unknown16 op) := opField_encodeWord _ _ _ _ _
theorem unknown32 (op : BitVec 6) : Statement (.unknown32 op) := opField_encodeWord _ _ _ _ _

end Sys2Proof.Laws.OpcodeField
end

