-- ==== Sys2Proof/Tests/Slice0.lean ====
section
/-! SUPPORT. The model's own tests. Expected values come from 30_encoding.md R97 and the vectors V1 to V78 of
95_test_vectors.md, or are worked out by hand from the rule named. The last part shows, for every obligation with
hypotheses, concrete states and operands that meet them. -/

namespace Sys2Proof.Tests

open Sys2Proof.Machine Sys2Proof.Safety

/-! ## WellFormed refuses what no word encodes (R94, R89) -/

theorem test_wf_refuses_long_literal : (Instr.loadImm 0 0x00080000#32).wf = false := by decide
theorem test_wf_refuses_low_literal : (Instr.pushImm 0xFFF7FFFF#32).wf = false := by decide
theorem test_wf_refuses_high_address : (Instr.branchAbs 0 0x00100000#32).wf = false := by decide
theorem test_wf_refuses_long_offset : (Instr.storeIdx 0 0 0x00008000#32).wf = false := by decide
theorem test_wf_refuses_defined_op : (Instr.unknown12 11).wf = false := by decide
theorem test_wf_refuses_op_of_next_row : (Instr.unknown16 32).wf = false := by decide
theorem test_wf_refuses_op_of_row_before : (Instr.unknown32 31).wf = false := by decide
theorem test_wf_takes_extremes :
    (Instr.loadImm 3 0xFFF80000#32).wf = true ∧ (Instr.addImm 2 0x0007FFFF#32).wf = true ∧
      (Instr.callAbs 0 0x000FFFFF#32).wf = true ∧ (Instr.popIdx 1 0xFFFF8000#32).wf = true ∧
      (Instr.unknown32 63).wf = true := by decide

/-! ## Decoding: one word of each constructor -/

theorem test_decode_illop : decode 0xFFFFFFC0#32 = .illop := by decide -- V62
theorem test_decode_nop : decode 0xFFFFFFC1#32 = .nop := by decide -- V60
theorem test_decode_loadImm : decode 0x000072C2#32 = .loadImm 2 7 := by decide -- V10: imm wins over idx
theorem test_decode_loadAbs : decode 0x00001302#32 = .loadAbs 3 1 := by decide -- V5
theorem test_decode_loadIdx : decode 0x00027482#32 = .loadIdx 4 7 2 := by decide -- V6
theorem test_decode_storeImm : decode 0x00000043#32 = .storeImm 0 0 := by decide -- V15
theorem test_decode_storeAbs : decode 0x00002503#32 = .storeAbs 5 2 := by decide -- V12
theorem test_decode_storeIdx : decode 0xFFFE6583#32 = .storeIdx 5 6 0xFFFFFFFE#32 := by decide -- V13
theorem test_decode_addImm : decode 0xFFFFB044#32 = .addImm 0 0xFFFFFFFB#32 := by decide -- V19
theorem test_decode_addAbs : decode 0x00001204#32 = .addAbs 2 1 := by decide -- V22
theorem test_decode_addIdx : decode 0x00001184#32 = .addIdx 1 1 0 := by decide -- V23
theorem test_decode_subImm : decode 0x00001045#32 = .subImm 0 1 := by decide -- V25
theorem test_decode_subAbs : decode 0x00000305#32 = .subAbs 3 0 := by decide -- V29
theorem test_decode_subIdx : decode 0xFFFF3285#32 = .subIdx 2 3 0xFFFFFFFF#32 := by decide -- R171: -1[r3], r2
theorem test_decode_branchImm : decode 0x00000946#32 = .branchImm 9 0 := by decide -- V34
theorem test_decode_branchAbs : decode 0x00002306#32 = .branchAbs 3 2 := by decide -- R97
theorem test_decode_branchIdx : decode 0x00025086#32 = .branchIdx 0 5 2 := by decide -- V31
theorem test_decode_callImm : decode 0x00000947#32 = .callImm 9 0 := by decide -- Scenario E
theorem test_decode_callAbs : decode 0x00004007#32 = .callAbs 0 4 := by decide -- P2
theorem test_decode_callIdx : decode 0xFFFF3087#32 = .callIdx 0 3 0xFFFFFFFF#32 := by decide -- V42
theorem test_decode_ret : decode 0xFFFFFFC8#32 = .ret := by decide -- V45
theorem test_decode_pushImm : decode 0xFFFFF049#32 = .pushImm 0xFFFFFFFF#32 := by decide -- V47
theorem test_decode_pushAbs : decode 0x00003009#32 = .pushAbs 3 := by decide -- V50
theorem test_decode_pushIdx : decode 0x00012089#32 = .pushIdx 2 1 := by decide -- V49
theorem test_decode_popImm : decode 0x0000004A#32 = .popImm 0 := by decide -- V57
theorem test_decode_popAbs : decode 0x0000900A#32 = .popAbs 9 := by decide -- V58
theorem test_decode_popIdx : decode 0x0001408A#32 = .popIdx 4 1 := by decide -- V55
theorem test_decode_halt : decode 0xABCDEF0B#32 = .halt := by decide -- V64
theorem test_decode_unknown12 : decode 0x0000000C#32 = .unknown12 12 := by decide -- V65
theorem test_decode_unknown16 : decode 0x0000001F#32 = .unknown16 31 := by decide -- R203
theorem test_decode_unknown32 : decode 0xFFFFFFFF#32 = .unknown32 63 := by decide -- V66

/-- V77: all payload readings of one word. -/
theorem test_decodeFields_V77 :
    decodeFields 0x7FFFF242#32 =
      { op := 2, imm := true, idx := false, rc := 2, value := 0x0007FFFF#32, address := 0x0007FFFF#32, base := 15,
        offset := 0x00007FFF#32 } := by decide

/-- V76: sign extension of both signed payloads. -/
theorem test_decodeFields_V76 :
    decodeFields 0x80000342#32 =
      { op := 2, imm := true, idx := false, rc := 3, value := 0xFFF80000#32, address := 0x00080000#32, base := 0,
        offset := 0xFFFF8000#32 } := by decide

/-- R97: the encoder's words. -/
theorem test_encode :
    encode (.loadIdx 0 2 0xFFFFFFFF#32) = 0xFFFF2082#32 ∧ encode (.branchAbs 3 2) = 0x00002306#32 ∧
      encode (.loadImm 3 0xFFF80000#32) = 0x80000342#32 ∧ encode .ret = 0x00000008#32 ∧
      encode (.pushImm 1) = 0x00001049#32 := by decide

/-! ## One step -/

/-- The state after loading a program: text, data, data_end (R251). -/
def prog (text data : List Word) (dataEnd : Word) : State :=
  Image.loaded { text := text, textSize := BitVec.ofNat 32 text.length, data := data,
                 dataSize := BitVec.ofNat 32 data.length, dataEnd := dataEnd } 0

/-- A step's next state. -/
def after (r : Result) : Option State :=
  match r with
  | .next t => some t
  | _ => none

/-- One view of the state a step from `s` leaves. -/
def seen {α : Type} (s : State) (view : State → α) : Option α := (after (step s)).map view

/-- sp and the fault record. -/
def stackAndFault (t : State) : Word × RunState × Option FaultKind × Word := (t.sp, t.run, t.faultKind, t.faultAddr)

theorem test_loadImm_V3 : -- sign extension, N
    seen (prog [0x80000342#32] [] 0) (fun t => (t.reg 3, t.cc, t.pc)) = some (0xFFF80000#32, .negative, 1) := by decide
theorem test_loadAbs_V8 : -- a = ds faults at ia, pc advanced
    seen (prog [0x00004002#32] [0, 0, 0, 0] 1) (fun t => (t.run, t.faultKind, t.faultAddr, t.pc, t.cc)) =
      some (.faulted, some .segmentData, 0, 1, .undefined) := by decide
theorem test_loadIdx_V7 : -- base is destination
    seen ((prog [0x00001182#32] [9, 8, 7] 3).setReg 1 2) (fun t => (t.reg 1, t.cc)) = some (7, .positive) := by decide
theorem test_storeImm_V15 :
    seen (prog [0x00000043#32] [0] 1) (fun t => (t.faultKind, t.data)) = some (some .immediateValue, []) := by decide
theorem test_storeAbs_V14 : -- a stack slot is writable
    seen ((prog [0x00003103#32] [0, 0, 0, 0] 1).setReg 1 0x77#32) (fun t => (t.data, t.sp, t.run)) =
      some ([(3, 0x77#32)], 3, .running) := by decide
theorem test_storeIdx_V13 :
    seen (((prog [0xFFFE6583#32] [0, 0, 0, 0] 1).setReg 5 0x1234#32).setReg 6 3) (fun t => t.data) =
      some [(1, 0x1234#32)] := by decide
theorem test_addImm_V21 : -- wrap
    seen ((prog [0x00001044#32] [] 0).setReg 0 0x7FFFFFFF#32) (fun t => (t.reg 0, t.cc)) =
      some (0x80000000#32, .negative) := by decide
theorem test_addAbs_V22 :
    seen ((prog [0x00001204#32] [0, 0xFFFFFFFD#32] 2).setReg 2 2) (fun t => (t.reg 2, t.cc)) =
      some (0xFFFFFFFF#32, .negative) := by decide
theorem test_addIdx_V23 :
    seen ((prog [0x00001184#32] [5, 6] 2).setReg 1 1) (fun t => t.reg 1) = some 7 := by decide
theorem test_subImm_V27 :
    seen ((prog [0x00001045#32] [] 0).setReg 0 0x80000000#32) (fun t => (t.reg 0, t.cc)) =
      some (0x7FFFFFFF#32, .positive) := by decide
theorem test_subAbs_V28 :
    seen (prog [0x00000005#32] [0x80000000#32] 1) (fun t => (t.reg 0, t.cc)) =
      some (0x80000000#32, .negative) := by decide
theorem test_subIdx_order : -- R171: register minus operand
    seen (((prog [0xFFFF3285#32] [4] 1).setReg 2 9).setReg 3 1) (fun t => (t.reg 2, t.cc)) = some (5, .positive) := by
  decide
theorem test_branchImm_V34 : -- the immediate check precedes the condition check
    seen (prog [0x00000946#32] [] 0) (fun t => (t.faultKind, t.faultAddr)) = some (some .immediateValue, 0) := by decide
theorem test_branchAbs_V30_ne_undefined :
    seen (prog [0x00003206#32, 0, 0, 0] [] 0) (fun t => (t.pc, t.run)) = some (3, .running) := by decide
theorem test_branchIdx_V31 :
    seen ((prog [0x00025086#32, 0, 0, 0] [] 0).setReg 5 1) (fun t => t.pc) = some 3 := by decide
theorem test_callImm_scenarioE :
    seen (prog [0x00000947#32] [0, 0, 0, 0] 1) stackAndFault = some (3, .faulted, some .immediateValue, 0) := by decide
theorem test_callAbs_V38 :
    seen (prog [0x00000007#32] [0, 0, 0, 0, 0, 0] 3) (fun t => (t.data, t.sp, t.pc)) = some ([(5, 1)], 4, 0) := by decide
theorem test_callAbs_V40 : -- sp stays decremented, nothing written
    seen (prog [0x00000007#32] [0, 0, 0, 0] 3) (fun t => (stackAndFault t, t.data, t.pc)) =
      some ((2, .faulted, some .segmentStack, 0), [], 1) := by decide
theorem test_callIdx_V42 :
    seen ((prog [0xFFFF3087#32, 0] [0, 0, 0, 0] 1).setReg 3 2) (fun t => (t.data, t.sp, t.pc)) =
      some ([(3, 1)], 2, 1) := by decide
theorem test_ret_V43 :
    seen (((prog [8, 0, 0, 0, 0, 0, 8] [0, 0, 0, 0, 0, 2] 3).setSp 4).setPc 6) (fun t => (t.sp, t.pc, t.data)) =
      some (5, 2, [(5, 2)]) := by decide
theorem test_ret_V44 :
    seen (prog [8] [0, 0, 0, 0] 1) (fun t => (stackAndFault t, t.pc)) =
      some ((4, .faulted, some .segmentStack, 0), 1) := by decide
theorem test_pushImm_V53 : -- ds = 0
    seen (prog [0x00001049#32] [] 0) stackAndFault = some (0xFFFFFFFE#32, .faulted, some .segmentStack, 0) := by decide
theorem test_pushAbs_V50 :
    seen (prog [0x00003009#32] [0, 0, 0, 0x5A#32] 1) (fun t => (t.data, t.sp)) = some ([(3, 0x5A#32)], 2) := by decide
theorem test_pushIdx_V49 :
    seen (prog [0x00012089#32] [1, 0x99#32, 0, 0] 2) (fun t => (t.data, t.sp, t.cc)) =
      some ([(0, 1), (1, 0x99#32), (3, 0x99#32)], 2, .undefined) := by decide
theorem test_popImm_V57 :
    seen (prog [0x0000004A#32] [1, 2, 3, 4] 1) stackAndFault = some (3, .faulted, some .immediateValue, 0) := by decide
theorem test_popAbs_V58 : -- the destination is checked first
    seen (prog [0x0000900A#32] [1, 2, 3, 4] 1) stackAndFault = some (3, .faulted, some .segmentData, 0) := by decide
theorem test_popIdx_V55 :
    seen ((prog [0x0001408A#32] [0, 0, 0, 7] 1).setSp 2) (fun t => (t.data, t.sp)) = some ([(1, 7), (3, 7)], 3) := by
  decide
theorem test_halt_V64 :
    seen (prog [0xABCDEF0B#32] [] 0) (fun t => (t.run, t.pc)) = some (.halted, 1) := by decide
theorem test_nop_V60 :
    after (step (prog [0xFFFFFFC1#32] [] 0)) = some ((prog [0xFFFFFFC1#32] [] 0).setPc 1) := by decide
theorem test_illop_V62 :
    seen (prog [0xFFFFFFC0#32] [] 0) (fun t => (t.faultKind, t.faultAddr, t.pc)) =
      some (some .illegalInstruction, 0, 1) := by decide
theorem test_unknown_V65_V66_V67 :
    (seen (prog [0x0000000C#32] [] 0) (fun t => (t.faultKind, t.pc)) = some (some .unknownInstruction, 1)) ∧
      (seen (prog [0xFFFFFFFF#32] [] 0) (fun t => (t.faultKind, t.pc)) = some (some .unknownInstruction, 1)) ∧
      (seen (prog [0x00000020#32] [] 0) (fun t => (t.faultKind, t.pc)) = some (some .unknownInstruction, 1)) := by
  decide
theorem test_fetch_V68_V69 : -- SEGTEXT_REPORT = PC
    (seen (prog [] [] 0) (fun t => (t.faultKind, t.faultAddr, t.pc)) = some (some .segmentText, 0, 0)) ∧
      (seen ((prog [1] [] 0).setPc 1) (fun t => (t.faultKind, t.faultAddr, t.pc)) = some (some .segmentText, 1, 1)) := by
  decide

/-- The host's placing of a word: the very next step of the reset state runs it. -/
theorem test_withFetchWord :
    seen (State.reset.withFetchWord 32 0x00005042) (fun t => (t.reg 0, t.pc, t.run)) = some (5, 1, .running) := by decide
theorem test_decodeTableWord : decodeTableWord 32 0xFFFFB044 = some (.addImm 0 0xFFFFFFFB#32) := by decide

/-! ## Witnesses: every obligation with hypotheses, at the edges of its clauses

`pair` has four data words and a stack window with two usable slots. -/

/-- Two text words, four data words, data_end = 1; sp = 3. -/
def pair (w : Word) : State := prog [w, 0] [0x2A#32, 0, 0, 0x5A#32] 1

/-- `pair` after one push. -/
def pushed (w : Word) : State := (pair w).setSp 2

theorem witness_DecodeEncodeRoundTrip :
    (Instr.loadImm 15 0xFFF80000#32).wf = true ∧ (Instr.storeIdx 0 15 0xFFFF8000#32).wf = true ∧
      (Instr.popAbs 0x000FFFFF#32).wf = true ∧ (Instr.unknown12 15).wf = true := by decide
theorem witness_UnconsultedBitsHaveNoEffect :
    (0x00000047#32 : Word) &&& consultedMask 0x00000047#32 = 0xFFFFFFC7#32 &&& consultedMask 0xFFFFFFC7#32 ∧
      (0x00000001#32 : Word) &&& consultedMask 0x00000001#32 = 0xFFFFFFC1#32 &&& consultedMask 0xFFFFFFC1#32 := by
  decide
theorem witness_StepRunsDecodedInstruction :
    (pair 0x00005042#32).run = .running ∧ (pair 0x00005042#32).pc < (pair 0x00005042#32).textSize ∧
      decode ((pair 0x00005042#32).textWord (pair 0x00005042#32).pc) = .loadImm 0 5 ∧
      (Instr.loadImm 0 5).wf = true := by decide
theorem witness_FetchPastTextRaisesSegmentText :
    State.reset.run = .running ∧ State.reset.textSize ≤ State.reset.pc ∧
      ((pair 0).setPc 2).run = .running ∧ ((pair 0).setPc 2).textSize ≤ ((pair 0).setPc 2).pc := by decide
theorem witness_TerminalStatesAreFixed :
    Terminal ((pair 0).setRun .halted) ∧ Terminal ((pair 0).raised .segmentData 0) := by decide
theorem witness_UnloadedIsRefused : (State.reset.setRun .unloaded).run = .unloaded := by decide
theorem witness_NopOnlyAdvancesPc :
    (pair 1).run = .running ∧ (pair 1).pc < (pair 1).textSize ∧ opField ((pair 1).textWord (pair 1).pc) = 1 := by decide
theorem witness_HaltIsTheOnlySuccessfulTermination :
    (pair 11).run = .running ∧ (pair 11).pc < (pair 11).textSize ∧ opField ((pair 11).textWord (pair 11).pc) = 11 ∧
      ((after (step (pair 11))).map fun t => t.run) = some .halted := by decide
theorem witness_IllopRaisesIllegalInstruction :
    (pair 0).run = .running ∧ (pair 0).pc < (pair 0).textSize ∧ opField ((pair 0).textWord (pair 0).pc) = 0 := by decide
theorem witness_UnknownOpcodesRaiseUnknownInstruction :
    (pair 12).run = .running ∧ (pair 12).pc < (pair 12).textSize ∧
      11 < (opField ((pair 12).textWord (pair 12).pc)).toNat ∧
      11 < (opField ((pair 63).textWord (pair 63).pc)).toNat := by decide
theorem witness_LiteralFormsRaiseImmediateValue :
    illegalForm (.storeAbs 0 9) = false ∧ (pair 0).faultKind ≠ some .immediateValue ∧
      (after (exec (.storeAbs 0 9) (pair 0))).isSome = true := by decide
theorem witness_memory_operand : -- LOAD, STORE, ADD, SUB: the last word, absolute and indexed
    (3 : Word) < (pair 0).dataSize ∧ ((pair 0).setReg 2 4).reg 2 + 0xFFFFFFFF#32 < ((pair 0).setReg 2 4).dataSize := by
  decide
theorem witness_ArithmeticInRangeIsExact : -- 2^31 - 1 and -2^31 are reached, by each form
    (-2147483648 ≤ ((pair 0).reg 0).toInt + (0x7FFFFFFF#32).toInt ∧
      ((pair 0).reg 0).toInt + (0x7FFFFFFF#32).toInt < 2147483648) ∧
    (-2147483648 ≤ (((pair 0).setReg 0 0xFFFFFFFF#32).reg 0).toInt - (0x7FFFFFFF#32).toInt ∧
      (((pair 0).setReg 0 0xFFFFFFFF#32).reg 0).toInt - (0x7FFFFFFF#32).toInt < 2147483648) ∧
    ((0 : Word) < (pair 0).dataSize ∧ (pair 0).dataWord 0 = 0x2A#32) ∧
    ((pair 0).reg 1 + 3 < (pair 0).dataSize ∧ (pair 0).dataWord ((pair 0).reg 1 + 3) = 0x5A#32) ∧
    (after (exec (.addImm 0 0x7FFFFFFF#32) (pair 0))).isSome = true ∧
    (after (exec (.subAbs 0 0) (pair 0))).isSome = true ∧ (after (exec (.subIdx 0 1 3) (pair 0))).isSome = true := by
  decide
theorem witness_CcIsSignOfTheValueWritten :
    destReg (.loadAbs 1 0) = some 1 ∧ (pair 0).run = .running ∧
      ((after (exec (.loadAbs 1 0) (pair 0))).map fun t => t.run) = some .running := by decide
theorem witness_ConditionTruthTable :
    (pair 0).cc = .undefined ∧ ((pair 0).setCc .zero).cc = .zero ∧ ((pair 0).setCc .positive).cc = .positive ∧
      ((pair 0).setCc .negative).cc = .negative := by decide
theorem witness_BranchSetsPcOrFallsThrough : -- the last target taken; not taken; indexed
    (Holds 0 (pair 0).cc ∧ (1 : Word) < (pair 0).textSize) ∧ (Holds 6 (pair 0).cc ∧ (pair 0).reg 3 + 1 < (pair 0).textSize) ∧
      ((5 : BitVec 4).toNat < 7 ∧ ¬ Holds 5 (pair 0).cc) ∧ ((1 : BitVec 4).toNat < 7 ∧ ¬ Holds 1 (pair 0).cc) := by decide
theorem witness_BranchOutsideTextRaisesSegmentText :
    Holds 0 (pair 0).cc ∧ (pair 0).textSize ≤ 2 ∧ (2 : Word) = (pair 0).reg 3 + 2 := by decide
theorem witness_IllegalConditionRaises : 7 ≤ (7 : BitVec 4).toNat ∧ 7 ≤ (15 : BitVec 4).toNat := by decide
theorem witness_CanPush : -- CALL, PUSH: from the top slot, and the lowest slot that can be filled
    Holds 2 (pair 0).cc ∧ CanPush (pair 0) ∧ CanPush (pushed 0) ∧ (3 : Word) < (pair 0).dataSize ∧
      (pair 0).reg 1 + 3 < (pair 0).dataSize ∧ (3 : BitVec 4).toNat < 7 ∧ ¬ Holds 3 (pair 0).cc := by decide
theorem witness_CanPop : -- RET, POP: the top slot, and the lowest
    CanPop (pushed 0) ∧ CanPop ((pair 0).setSp 0) ∧ (3 : Word) < (pushed 0).dataSize ∧
      (pushed 0).reg 1 + 0 < (pushed 0).dataSize := by decide
theorem witness_CallThenRetReturns :
    ∃ t, Holds 0 (pair 0).cc ∧ Completes (exec (.callAbs 0 1) (pair 0)) t ∧ t.run = .running ∧
      (t.setPc 0).sp = t.sp ∧ (t.setPc 0).dataWord (pair 0).sp = t.dataWord (pair 0).sp ∧
      (t.setPc 0).dataSize = t.dataSize ∧ (t.setPc 0).dataEnd = t.dataEnd :=
  ⟨_, by decide, ⟨rfl, rfl⟩, rfl, rfl, rfl, rfl, rfl⟩
theorem witness_StackIsLifo : ∃ t, pushAll [7, 8] (pair 0) = .ok t := ⟨_, rfl⟩
theorem witness_PushPopMovesMemoryToMemory :
    CanPush (pair 0) ∧ (0 : Word) < (pair 0).dataSize ∧ (3 : Word) < (pair 0).dataSize := by decide
theorem witness_SegmentDataFiresOutsideData :
    (pair 0).faultKind ≠ some .segmentData ∧ dataOperand (.popAbs 4) (pair 0) = some 4 ∧ (pair 0).dataSize ≤ 4 ∧
      dataOperand (.loadIdx 0 1 0xFFFFFFFF#32) (pair 0) = some 0xFFFFFFFF#32 := by decide
theorem witness_SegmentStackFiresOutsideWindow : -- below data_end, and at data_size
    (pair 0).faultKind ≠ some .segmentStack ∧
      (adjustedSp (.pushImm 0) ((pair 0).setSp 1) = some 0 ∧ (0 : Word) < ((pair 0).setSp 1).dataEnd) ∧
      (adjustedSp .ret (pair 0) = some 4 ∧ (pair 0).dataSize ≤ 4) ∧
      (adjustedSp (.callAbs 0 0) ((pair 0).setSp 1) = some 0) ∧ adjustedSp (.popAbs 0) (pair 0) = some 4 := by decide
theorem witness_OnlyListedFaultsAreRaised :
    (pair 0).run = .running ∧ ((after (exec (.pushAbs 4) (pair 0))).map fun t => t.run) = some .faulted := by decide
theorem witness_FaultingStepWritesNoRegisterOrData : -- in dispatch, by the fetch check, by the stack check
    (pair 8).run = .running ∧ ((after (step (pair 0))).map fun t => t.run) = some .faulted ∧
      ((after (step State.reset)).map fun t => t.run) = some .faulted ∧
      ((after (step (pair 8))).map fun t => (t.run, t.faultKind)) = some (.faulted, some .segmentStack) ∧
      (pair 8).pc < (pair 8).textSize ∧ State.reset.textSize ≤ State.reset.pc := by decide
theorem witness_frames : -- the four frames over exec
    (after (exec (.pushImm 7) (pair 0))).isSome = true ∧ destReg (.pushImm 7) = none ∧
      (after (exec (.loadImm 1 7) (pair 0))).isSome = true ∧ destReg (.loadImm 1 7) ≠ some 2 ∧
      storedAddress (.pushImm 7) (pair 0) ≠ some 2 ∧ transfers (.pushImm 7) = false := by decide
theorem witness_step_frames : -- StepKeepsTextAndSizes, CcNeverReturnsToUndefined
    (after (step (pair 0x00005042#32))).isSome = true ∧ ((pair 1).setCc .zero).cc ≠ .undefined ∧
      (after (step ((pair 1).setCc .zero))).isSome = true := by decide

/-- An image of the largest sizes its capacities admit. -/
def image : Image :=
  { text := [0x00000006#32], textSize := 1, data := [5, 0], dataSize := 2, dataEnd := 1 }

theorem witness_LoadInstallsTheImage :
    image.textSize ≤ (⟨1, 2⟩ : Config.Capacity).textCap ∧ image.dataSize ≤ (⟨1, 2⟩ : Config.Capacity).dataCap ∧
      image.text.length = image.textSize.toNat ∧ image.data.length = image.dataSize.toNat ∧
      (0 : Word) < image.textSize ∧ (1 : Word) < image.dataSize := by decide
theorem witness_LoadOutsideItsDutiesIsRefused :
    (⟨0, 2⟩ : Config.Capacity).textCap < image.textSize ∧ (⟨1, 1⟩ : Config.Capacity).dataCap < image.dataSize ∧
      ({ image with textSize := 0 } : Image).text.length ≠ ({ image with textSize := 0 } : Image).textSize.toNat ∧
      ({ image with dataSize := 1 } : Image).data.length ≠ ({ image with dataSize := 1 } : Image).dataSize.toNat := by
  decide
theorem witness_accepted_load : -- LoadedStateIsSound, LoadedRunsNeverGetStuck, FetchedTextIsTheLoadedText
    ∃ t u, loadImage ⟨1, 2⟩ image 0 State.reset = .next t ∧ runFor 2 t = .next u ∧ (0 : Word) < image.textSize :=
  ⟨_, _, rfl, rfl, by decide⟩
theorem witness_Sound : Sound (pair 1) ∧ (pair 1).run ≠ .unloaded ∧ (after (step (pair 1))).isSome = true :=
  ⟨⟨by decide, by decide, by decide, by decide, by decide⟩, by decide, by decide⟩
theorem witness_SelfBranchRunsForever :
    (pair 6).run = .running ∧ (pair 6).pc < (pair 6).textSize ∧
      decode ((pair 6).textWord (pair 6).pc) = .branchAbs 0 (pair 6).pc := by decide
theorem witness_DataAndTextPortsShowTheArrays :
    (3 : Word) < (pair 0).dataSize ∧ (pair 0).dataSize ≤ 4 ∧ (1 : Word) < (pair 0).textSize ∧ (pair 0).textSize ≤ 2 := by
  decide

end Sys2Proof.Tests
end

/-! The program memory along a run (20_memory.md R63): a step keeps the text array and text_size, hence so does a run
of any length, and the array `load` installs reads as the image's words. -/

namespace Sys2Proof.Proofs.LoadedText

open Sys2Proof.Machine Sys2Proof.Safety

/-! ## The induction over a run, once for every property -/

/-- What every step keeps, a run of any length keeps. -/
theorem runFor_preserves {P : State → Prop} (hstep : ∀ {s t : State}, step s = .next t → P s → P t) :
    ∀ {n : Nat} {s t : State}, runFor n s = .next t → P s → P t
  | 0, s, t, h, hs => by
    simp only [runFor] at h
    split at h <;> cases h
    exact hs
  | n + 1, s, t, h, hs => by
    simp only [runFor] at h
    split at h
    next u hu => exact runFor_preserves hstep h (hstep hu hs)
    next hnot => exact absurd h (hnot t)

/-! ## The text array and its size along a run -/

/-- The program memory of a state: the text array and text_size (10_state.md R33). -/
def program (s : State) : Memory × Word := (s.text, s.textSize)

/-- The fetch's increment of pc and every jump. -/
theorem program_setPc (s : State) (v : Word) : program (s.setPc v) = program s := rfl

/-- No instruction writes the program memory: a store, a push and a pop write the other array. -/
theorem exec_keeps_program {i : Instr} {s t : State} (h : exec i s = .next t) : program t = program s := by
  cases exec_leaves h <;> simp [program]

theorem step_keeps_program {s t : State} (h : step s = .next t) : program t = program s := by
  obtain ⟨-, rfl⟩ | ⟨-, -, rfl⟩ | ⟨-, -, hexec⟩ := step_cases h
  · rfl
  · rfl
  · exact (exec_keeps_program hexec).trans (program_setPc s _)

theorem runFor_keeps_program {n : Nat} {s t : State} (h : runFor n s = .next t) : program t = program s :=
  runFor_preserves (P := fun u => program u = program s) (fun hstep hs => (step_keeps_program hstep).trans hs) h rfl

/-! ## What load installs -/

/-- An accepted load leaves the image's state, and the image names exactly text_size words (R251, R254). -/
theorem loadImage_next {cap : Config.Capacity} {img : Image} {addr : Word} {s0 s : State}
    (h : loadImage cap img addr s0 = .next s) : s = img.loaded addr ∧ img.text.length = img.textSize.toNat := by
  simp only [loadImage] at h
  split at h
  · cases h
  · split at h <;> cases h
    next hlen => exact ⟨rfl, by omega⟩

/-- A loaded text word below text_size is the image's word of that index (20_memory.md R65). -/
theorem loaded_textWord {img : Image} (addr : Word) {a : Word} (hlen : img.text.length = img.textSize.toNat)
    (ha : a < img.textSize) : img.text[a.toNat]? = some ((img.loaded addr).textWord a) := by
  have hidx : a.toNat < img.text.length := hlen ▸ BitVec.lt_def.1 ha
  simp [State.textWord, Image.loaded, Memory.read_ofWords, hidx]

/-- Settles O51: the run keeps the program memory, which at its start is the one load installed. -/
theorem fetchedTextIsTheLoadedText : Obligations.FetchedTextIsTheLoadedText := by
  intro cap img addr s0 s t n hload hrun
  obtain ⟨rfl, hlen⟩ := loadImage_next hload
  obtain ⟨htext, hsize⟩ := Prod.mk.inj (runFor_keeps_program hrun)
  refine ⟨hsize, fun a ha => ?_⟩
  have hword : t.textWord a = (img.loaded addr).textWord a := congrArg (Memory.read · a.toNat) htext
  rw [hword]
  exact loaded_textWord addr hlen ha

end Sys2Proof.Proofs.LoadedText

/-! The immediate check of STORE, BRANCH, CALL and POP (40_cycle_and_operands.md R131): who raises Immediate-Value. -/

namespace Sys2Proof.Proofs.ImmediateCheck

open Sys2Proof.Machine Sys2Proof.Safety

/-- An instruction leaves the fault record's kind alone or writes one of the kinds listed for it (60_exceptions.md
R231). -/
theorem exec_faultKind {i : Instr} {s t : State} (h : exec i s = .next t) :
    t.faultKind = s.faultKind ∨ ∃ k ∈ canRaise i, t.faultKind = some k := by
  cases exec_leaves h with
  | raised k hk => exact .inr ⟨k, hk, rfl⟩
  | raisedStack sp' hk => exact .inr ⟨.segmentStack, hk, rfl⟩
  | unchanged | register | stored | jumped | pushed | called | popped | returned | halted => exact .inl rfl

/-- In the fault matrix Immediate-Value stands at the four literal forms and nowhere else. -/
theorem immediateValue_mem_canRaise_iff (i : Instr) : .immediateValue ∈ canRaise i ↔ illegalForm i = true := by
  cases i <;> simp [canRaise, illegalForm]

/-- Settles O15: each of the four handlers begins with the immediate check, and no other instruction lists the kind. -/
theorem literalFormsRaiseImmediateValue : Obligations.LiteralFormsRaiseImmediateValue := by
  refine ⟨fun r c v s => ⟨storeWord_immediate r v s, branchTo_immediate c v s, callTo_immediate c v s,
    popTo_immediate v s⟩, fun i s t hform hbefore hexec hafter => ?_⟩
  obtain hsame | ⟨k, hk, hkind⟩ := exec_faultKind hexec
  · exact hbefore (hsame.symm.trans hafter)
  · obtain rfl : k = .immediateValue := Option.some.inj (hkind.symm.trans hafter)
    exact Bool.eq_false_iff.1 hform ((immediateValue_mem_canRaise_iff i).1 hk)

end Sys2Proof.Proofs.ImmediateCheck

/-! The sign classifier (40_cycle_and_operands.md R133) by each of its readings, and cc after LOAD, ADD and SUB. -/

namespace Sys2Proof.Proofs.SignClassifier

open Sys2Proof.Machine Sys2Proof.Safety

/-! ## Bit 31 of a word -/

/-- Bit 31 is the sign of the two's-complement reading (00_scope.md R9). -/
theorem bit31_iff_toInt_neg (v : Word) : v.getLsbD 31 = true ↔ v.toInt < 0 := by
  have hmsb : v.msb = v.getLsbD 31 := v.msb_eq_getLsbD_last
  rw [← hmsb, BitVec.msb_eq_toInt, decide_eq_true_iff]

/-- A word with bit 31 clear, other than 0, reads as a positive integer. -/
theorem bit31_clear_iff_toInt_pos (v : Word) : v ≠ 0#32 ∧ v.getLsbD 31 = false ↔ 0 < v.toInt := by
  have hzero : v = 0#32 ↔ v.toInt = 0 := BitVec.toInt_inj.symm
  rw [← Bool.not_eq_true, bit31_iff_toInt_neg, Ne, hzero]
  omega

/-! ## The classifier, one equivalence for each code -/

/-- The three branches of the classifier; the word 0 has bit 31 clear. -/
theorem classify_cases (v : Word) :
    (v = 0#32 ∧ v.getLsbD 31 = false ∧ classify v = .zero) ∨
      (v ≠ 0#32 ∧ v.getLsbD 31 = false ∧ classify v = .positive) ∨
      (v ≠ 0#32 ∧ v.getLsbD 31 = true ∧ classify v = .negative) := by
  by_cases hzero : v = 0#32
  · subst hzero; decide
  · cases hbit : v.getLsbD 31 with
    | false => exact .inr (.inl ⟨hzero, rfl, (if_neg hzero).trans (if_pos hbit)⟩)
    | true => exact .inr (.inr ⟨hzero, rfl, (if_neg hzero).trans (if_neg (by simpa using hbit))⟩)

theorem classify_eq_zero_iff (v : Word) : classify v = .zero ↔ v = 0#32 := by
  obtain ⟨hzero, -, hc⟩ | ⟨hzero, -, hc⟩ | ⟨hzero, -, hc⟩ := classify_cases v
  · exact iff_of_true hc hzero
  · exact iff_of_false (by simp [hc]) hzero
  · exact iff_of_false (by simp [hc]) hzero

theorem classify_eq_positive_iff (v : Word) : classify v = .positive ↔ v ≠ 0#32 ∧ v.getLsbD 31 = false := by
  obtain ⟨hzero, hbit, hc⟩ | ⟨hzero, hbit, hc⟩ | ⟨hzero, hbit, hc⟩ := classify_cases v
  · exact iff_of_false (by simp [hc]) fun ⟨hne, _⟩ => hne hzero
  · exact iff_of_true hc ⟨hzero, hbit⟩
  · exact iff_of_false (by simp [hc]) fun ⟨_, hclear⟩ => Bool.noConfusion (hbit.symm.trans hclear)

theorem classify_eq_negative_iff (v : Word) : classify v = .negative ↔ v.getLsbD 31 = true := by
  obtain ⟨-, hbit, hc⟩ | ⟨-, hbit, hc⟩ | ⟨-, hbit, hc⟩ := classify_cases v <;>
    simp only [hc, hbit, reduceCtorEq, Bool.false_eq_true]

theorem classify_ne_undefined (v : Word) : classify v ≠ .undefined := by
  obtain ⟨-, -, hc⟩ | ⟨-, -, hc⟩ | ⟨-, -, hc⟩ := classify_cases v <;> simp [hc]

/-! ## The instructions that call it -/

/-- An instruction with a destination register that leaves the machine Running has written that register, and cc is
the class of what it wrote: the only other thing such an instruction can leave is a fault. -/
theorem exec_cc_of_destReg {i : Instr} {rd : RegId} {s t : State} (hd : destReg i = some rd)
    (h : exec i s = .next t) (hrun : t.run = .running) : t.cc = classify (t.reg rd) := by
  cases exec_leaves h with
  | register rd' v hd' =>
    obtain rfl : rd' = rd := Option.some.inj (hd'.symm.trans hd)
    simp
  | unchanged hnone | stored _ _ hnone | jumped _ hnone | pushed _ hnone | called _ hnone | popped _ _ hnone
  | returned _ hnone => cases hnone.symm.trans hd
  | halted | raised | raisedStack => cases hrun

/-- Settles O22: the classifier's equivalences, its signed reading through bit 31, and the handlers that call it. -/
theorem ccIsSignOfTheValueWritten : Obligations.CcIsSignOfTheValueWritten := by
  refine ⟨fun v s => ?_, fun i rd s t hd _ hexec hrun => exec_cc_of_destReg hd hexec hrun⟩
  have hpos := classify_eq_positive_iff v
  have hneg := classify_eq_negative_iff v
  exact ⟨classify_eq_zero_iff v, hpos, hneg, hpos.trans (bit31_clear_iff_toInt_pos v),
    hneg.trans (bit31_iff_toInt_neg v), classify_ne_undefined v⟩

end Sys2Proof.Proofs.SignClassifier

/-! NOP (45_nop_illop_halt.md R200), from the op field of the fetched word to the result of the step. -/

namespace Sys2Proof.Proofs.NopStep

open Sys2Proof.Machine

/-- A Running machine with pc inside text executes the fetched word's instruction, pc one more (R120). -/
theorem step_of_fetched {s : State} (hrun : s.run = .running) (hpc : s.pc < s.textSize) :
    step s = exec (decode (s.textWord s.pc)) (s.setPc (s.pc + 1#32)) := by
  rw [step_running hrun, cycle_eq, if_pos hpc]

theorem result?_of_running {s : State} (hrun : s.run = .running) : s.result? = some .continue := by
  simp only [State.result?, hrun]

/-- The row of op 1 has no addressing mode: the decoder reads no field beside op (30_encoding.md R89). -/
theorem decode_eq_nop_of_opField {w : Word} (hop : opField w = 1) : decode w = .nop := by
  have hrow : (decodeFields w).op = 1 := hop
  simp [decode, toInstr, hrow]

theorem exec_nop (s : State) : exec .nop s = .next s := rfl

/-- Settles O11: op 1 decodes to NOP, and NOP leaves the state that the fetch left. -/
theorem nopOnlyAdvancesPc : Obligations.NopOnlyAdvancesPc := by
  refine ⟨exec_nop, fun s hrun hpc hop => ⟨?_, ?_⟩⟩
  · rw [step_of_fetched hrun hpc, decode_eq_nop_of_opField hop, exec_nop]
  · exact result?_of_running ((State.setPc_run s _).trans hrun)

end Sys2Proof.Proofs.NopStep

/-! Raising a fault (60_exceptions.md R220): what the raise does to any handler, and the three kinds that a handler
raises before it touches anything (R211, R212, R213). -/

namespace Sys2Proof.Proofs.Raises

open Sys2Proof.Machine Sys2Proof.Safety Sys2Proof.Proofs.NopStep

/-! ## The raise itself -/

/-- A raise is the end of its handler: the rest of the handler does not run (R220). -/
theorem raiseAt_bind {α β : Type} (k : FaultKind) (addr : Word) (s : State) (rest : α → Phase β) :
    (raiseAt k addr s >>= rest) = .error (.next (s.raised k addr)) := rfl

/-- The host is delivered the record that the raise wrote (R220). -/
theorem result?_raised (s : State) (k : FaultKind) (addr : Word) :
    (s.raised k addr).result? = some (.fault k addr) := rfl

/-- Settles O10: the state is `State.raised`, whose laws give its record and its frame field by field. -/
theorem raiseWritesOnlyTheFaultRecord : Obligations.RaiseWritesOnlyTheFaultRecord := by
  intro k addr s
  have hends : ∀ rest : State → Phase State, finish (raiseAt k addr s >>= rest) = .next (s.raised k addr) :=
    fun rest => by rw [raiseAt_bind, finish_error]
  have hrecord : Raised k addr (s.raised k addr) :=
    ⟨s.raised_run k addr, s.raised_faultKind k addr, s.raised_faultAddr k addr⟩
  have hlimits : SameLimits s (s.raised k addr) :=
    ⟨s.raised_textWord k addr, s.raised_textSize k addr, s.raised_dataSize k addr, s.raised_dataEnd k addr⟩
  exact ⟨s.raised k addr, hends, hrecord, result?_raised s k addr, s.raised_reg k addr, s.raised_pc k addr,
    s.raised_sp k addr, s.raised_cc k addr, s.raised_dataWord k addr, hlimits⟩

/-! ## From the handler to the step -/

/-- Behind the fetch, ia is the address that was fetched (40_cycle_and_operands.md R122). -/
theorem ia_of_fetched (s : State) : (s.setPc (s.pc + 1#32)).ia = s.pc := by
  rw [State.setPc_ia, BitVec.add_sub_cancel]

/-- An instruction that raises at ia whatever its state makes the step record the fetched word's address, with pc one
more. -/
theorem step_raises_of_fetched {s : State} {k : FaultKind} (hrun : s.run = .running) (hpc : s.pc < s.textSize)
    (hexec : ∀ u : State, exec (decode (s.textWord s.pc)) u = .next (u.raised k u.ia)) :
    step s = .next ((s.setPc (s.pc + 1#32)).raised k s.pc) := by
  rw [step_of_fetched hrun hpc, hexec, ia_of_fetched]

/-! ## ILLOP -/

theorem exec_illop (s : State) : exec .illop s = .next (s.raised .illegalInstruction s.ia) := rfl

/-- The row of op 0 has no addressing mode (30_encoding.md R89). -/
theorem decode_eq_illop_of_opField {w : Word} (hop : opField w = 0) : decode w = .illop := by
  have hrow : (decodeFields w).op = 0 := hop
  simp [decode, toInstr, hrow]

/-- Settles O13: op 0 decodes to ILLOP, and ILLOP raises whatever its state. -/
theorem illopRaisesIllegalInstruction : Obligations.IllopRaisesIllegalInstruction := by
  refine ⟨exec_illop, fun s hrun hpc hop => step_raises_of_fetched hrun hpc fun u => ?_⟩
  rw [decode_eq_illop_of_opField hop, exec_illop]

/-! ## The unknown opcodes -/

theorem exec_unknown12 (op : BitVec 6) (s : State) :
    exec (.unknown12 op) s = .next (s.raised .unknownInstruction s.ia) := rfl

theorem exec_unknown16 (op : BitVec 6) (s : State) :
    exec (.unknown16 op) s = .next (s.raised .unknownInstruction s.ia) := rfl

theorem exec_unknown32 (op : BitVec 6) (s : State) :
    exec (.unknown32 op) s = .next (s.raised .unknownInstruction s.ia) := rfl

/-- An op field above 11 is on none of the twelve defined rows: the word decodes to one of the three unknown rows
(30_encoding.md R93). -/
theorem decode_unknown_of_opField {w : Word} (hop : 11 < (opField w).toNat) :
    decode w = .unknown12 (opField w) ∨ decode w = .unknown16 (opField w) ∨ decode w = .unknown32 (opField w) := by
  obtain ⟨n, hn⟩ : ∃ n, (decodeFields w).op.toNat = n + 12 := Nat.exists_eq_add_of_le' hop
  have hrow : decode w = if n + 12 < 16 then .unknown12 (opField w)
      else if n + 12 < 32 then .unknown16 (opField w) else .unknown32 (opField w) := by
    rw [decode, toInstr, hn]; rfl
  rw [hrow]
  by_cases h16 : n + 12 < 16
  · exact .inl (if_pos h16)
  · rw [if_neg h16]
    by_cases h32 : n + 12 < 32
    · exact .inr (.inl (if_pos h32))
    · exact .inr (.inr (if_neg h32))

/-- Settles O14: an op above 11 decodes to an unknown row, and each of those raises whatever its state. -/
theorem unknownOpcodesRaiseUnknownInstruction : Obligations.UnknownOpcodesRaiseUnknownInstruction := by
  refine ⟨fun op s => ⟨exec_unknown12 op s, exec_unknown16 op s, exec_unknown32 op s⟩,
    fun s hrun hpc hop => step_raises_of_fetched hrun hpc fun u => ?_⟩
  obtain hrow | hrow | hrow := decode_unknown_of_opField hop
  · rw [hrow, exec_unknown12]
  · rw [hrow, exec_unknown16]
  · rw [hrow, exec_unknown32]

/-! ## BRANCH and CALL with an illegal condition -/

/-- BRANCH looks at its condition before its target, whichever form gives the target (43_branch_call_ret.md R180). -/
theorem branchTo_illegalCondition {c : BitVec 4} (hc : 7 ≤ c.toNat) (o : AddrOperand) (s : State) :
    branchTo c (.address o) s = .next (s.raised .illegalCondition s.ia) := by
  rw [branchTo_address, (condOfField_eq_none_iff c).2 hc]

/-- CALL looks at its condition before it pushes (43_branch_call_ret.md R181). -/
theorem callTo_illegalCondition {c : BitVec 4} (hc : 7 ≤ c.toNat) (o : AddrOperand) (s : State) :
    callTo c (.address o) s = .next (s.raised .illegalCondition s.ia) := by
  rw [callTo_address, (condOfField_eq_none_iff c).2 hc]

/-- Settles O26: the addressed forms by their handlers' condition check; the literal forms stop at the immediate check,
which comes before it. -/
theorem illegalConditionRaises : Obligations.IllegalConditionRaises := by
  intro c s hc
  have hbranch := fun o => branchTo_illegalCondition hc o s
  have hcall := fun o => callTo_illegalCondition hc o s
  exact ⟨fun a => ⟨hbranch (.absolute a), hcall (.absolute a)⟩,
    fun b o => ⟨hbranch (.indexed b o), hcall (.indexed b o)⟩,
    fun v => ⟨branchTo_immediate c v s, callTo_immediate c v s⟩⟩

end Sys2Proof.Proofs.Raises

/-! The encoder and the decoder are inverse to each other (30_encoding.md sections 2 and 5): on operands by what the
payload keeps of them, on words by their canonical form; and what an opcode does not consult changes nothing. -/

namespace Sys2Proof.Proofs.EncodeDecode

open Sys2Proof.Machine Sys2Proof.Safety

/-! ## What the payload keeps of an operand -/

/-- A word in the range of `k` signed bits is the sign extension of its low `k` bits (R86, R88). -/
theorem signExtend_extractLsb' {k : Nat} (hk : k ≤ 32) {v : Word} (hlo : -(((2 ^ k : Nat) : Int) / 2) ≤ v.toInt)
    (hhi : v.toInt < (((2 ^ k : Nat) : Int) + 1) / 2) : (v.extractLsb' 0 k).signExtend 32 = v := by
  rw [← BitVec.setWidth_eq_extractLsb' hk, ← BitVec.signExtend_eq_setWidth_of_le v hk]
  apply BitVec.eq_of_toInt_eq
  rw [BitVec.toInt_signExtend_of_le hk, BitVec.toInt_signExtend, Nat.min_eq_left hk, Int.bmod_eq_of_le hlo hhi]

theorem signExtend_value {v : Word} (h : fitsValue v = true) : (v.extractLsb' 0 20).signExtend 32 = v := by
  obtain ⟨hlo, hhi⟩ := of_decide_eq_true h
  exact signExtend_extractLsb' (by decide) hlo hhi

theorem signExtend_offset {o : Word} (h : fitsOffset o = true) : (o.extractLsb' 0 16).signExtend 32 = o := by
  obtain ⟨hlo, hhi⟩ := of_decide_eq_true h
  exact signExtend_extractLsb' (by decide) hlo hhi

theorem setWidth_address {a : Word} (h : fitsAddress a = true) : (a.extractLsb' 0 20).setWidth 32 = a := by
  have hlt : a.toNat < 1048576 := of_decide_eq_true h
  apply BitVec.eq_of_toNat_eq
  simp
  omega

/-- Conversely every payload reads as an operand in range. -/
theorem fitsValue_signExtend (p : BitVec 20) : fitsValue (p.signExtend 32) = true := by
  apply decide_eq_true
  rw [BitVec.toInt_signExtend_of_le (by decide)]
  exact ⟨p.le_toInt, p.toInt_lt⟩

theorem fitsOffset_signExtend (p : BitVec 16) : fitsOffset (p.signExtend 32) = true := by
  apply decide_eq_true
  rw [BitVec.toInt_signExtend_of_le (by decide)]
  exact ⟨p.le_toInt, p.toInt_lt⟩

theorem fitsAddress_setWidth (p : BitVec 20) : fitsAddress (p.setWidth 32) = true := by
  apply decide_eq_true
  rw [BitVec.toNat_setWidth_of_le (by decide)]
  exact p.isLt

/-! ## The decoder on the encoder's word, form by form -/

/-- The immediate form keeps op, rc and a literal in range (R86, R94). -/
theorem decode_encodeImm (op : BitVec 6) (rc : BitVec 4) {v : Word} (h : fitsValue v = true) :
    ∃ address base offset, decode (encodeImm op rc v) = toInstr ⟨op, true, false, rc, v, address, base, offset⟩ := by
  rw [decode, encodeImm, decodeFields_encodeWord, signExtend_value h]
  exact ⟨_, _, _, rfl⟩

/-- The absolute form keeps op, rc and an address in range (R87, R94). -/
theorem decode_encodeAbs (op : BitVec 6) (rc : BitVec 4) {a : Word} (h : fitsAddress a = true) :
    ∃ value base offset, decode (encodeAbs op rc a) = toInstr ⟨op, false, false, rc, value, a, base, offset⟩ := by
  rw [decode, encodeAbs, decodeFields_encodeWord, setWidth_address h]
  exact ⟨_, _, _, rfl⟩

/-- The indexed form keeps op, rc, the base and an offset in range (R88, R94). -/
theorem decode_encodeIdx (op : BitVec 6) (rc : BitVec 4) (b : RegId) {o : Word} (h : fitsOffset o = true) :
    ∃ value address, decode (encodeIdx op rc b o) = toInstr ⟨op, false, true, rc, value, address, b, o⟩ := by
  have hbase : (o.extractLsb' 0 16 ++ b : BitVec (16 + 4)).extractLsb' 0 4 = b := BitVec.extractLsb'_append_eq_right
  have hoff : (o.extractLsb' 0 16 ++ b : BitVec (16 + 4)).extractLsb' 4 16 = o.extractLsb' 0 16 :=
    BitVec.extractLsb'_append_eq_left
  rw [decode, encodeIdx, decodeFields_encodeWord, hbase, hoff, signExtend_offset h]
  exact ⟨_, _, rfl⟩

/-- The row of an opcode above 11 (R89, R203). -/
theorem decode_of_op_gt {w : Word} (hop : 11 < (opField w).toNat) :
    decode w = if (opField w).toNat < 16 then .unknown12 (opField w)
      else if (opField w).toNat < 32 then .unknown16 (opField w) else .unknown32 (opField w) := by
  obtain ⟨n, hn⟩ : ∃ n, (opField w).toNat = n + 12 := Nat.exists_eq_add_of_le' hop
  have hrow : (decodeFields w).op.toNat = n + 12 := hn
  rw [decode, toInstr, hrow, hn]
  rfl

theorem decode_encodeOp_of_gt {op : BitVec 6} (hop : 11 < op.toNat) :
    decode (encodeOp op) =
      if op.toNat < 16 then .unknown12 op else if op.toNat < 32 then .unknown16 op else .unknown32 op := by
  have hfield : opField (encodeOp op) = op := opField_encodeWord _ _ _ _ _
  rw [decode_of_op_gt (hfield.symm ▸ hop), hfield]

/-- Settles O1: each form's operands read back, and the opcode selects the row and the mode it was taken from. -/
theorem decodeEncodeRoundTrip : Obligations.DecodeEncodeRoundTrip := by
  intro i h
  cases i with
  | illop | nop | ret | halt => decide
  | loadImm r v | storeImm r v | addImm r v | subImm r v | branchImm r v | callImm r v =>
    obtain ⟨_, _, _, hdec⟩ := decode_encodeImm _ r h
    exact hdec
  | pushImm v | popImm v =>
    obtain ⟨_, _, _, hdec⟩ := decode_encodeImm _ 0 h
    exact hdec
  | loadAbs r a | storeAbs r a | addAbs r a | subAbs r a | branchAbs r a | callAbs r a =>
    obtain ⟨_, _, _, hdec⟩ := decode_encodeAbs _ r h
    exact hdec
  | pushAbs a | popAbs a =>
    obtain ⟨_, _, _, hdec⟩ := decode_encodeAbs _ 0 h
    exact hdec
  | loadIdx r b o | storeIdx r b o | addIdx r b o | subIdx r b o | branchIdx r b o | callIdx r b o =>
    obtain ⟨_, _, hdec⟩ := decode_encodeIdx _ r b h
    exact hdec
  | pushIdx b o | popIdx b o =>
    obtain ⟨_, _, hdec⟩ := decode_encodeIdx _ 0 b h
    exact hdec
  | unknown12 op =>
    obtain ⟨hlo, hhi⟩ := of_decide_eq_true h
    exact (decode_encodeOp_of_gt (by omega)).trans (if_pos hhi)
  | unknown16 op =>
    obtain ⟨hlo, hhi⟩ := of_decide_eq_true h
    exact (decode_encodeOp_of_gt (by omega)).trans ((if_neg (by omega)).trans (if_pos hhi))
  | unknown32 op =>
    obtain ⟨hlo, hhi⟩ := of_decide_eq_true h
    exact (decode_encodeOp_of_gt (by omega)).trans ((if_neg (by omega)).trans (if_neg (by omega)))

/-! ## Every word is the encoder's word of its fields -/

theorem encodeWord_fields (w : Word) :
    encodeWord (opField w) (immField w) (idxField w) (rcField w) (payloadField w) = w := by
  apply BitVec.eq_of_getLsbD_eq
  intro i hi
  rw [encodeWord_getLsbD]
  by_cases h6 : i < 6
  · simp [opField, h6]
  · by_cases h7 : i < 7
    · obtain rfl : i = 6 := by omega
      rfl
    · by_cases h8 : i < 8
      · obtain rfl : i = 7 := by omega
        rfl
      · by_cases h12 : i < 12
        · have hoff : i - 8 < 4 := by omega
          have hback : 8 + (i - 8) = i := by omega
          simp [rcField, h6, h7, h8, h12, hoff, hback]
        · have hoff : i - 12 < 20 := by omega
          have hback : 12 + (i - 12) = i := by omega
          simp [payloadField, h6, h7, h8, h12, hoff, hback]

/-- A mask acts on each field alone. -/
theorem encodeWord_and (op op' : BitVec 6) (imm imm' idx idx' : Bool) (rc rc' : BitVec 4) (p p' : BitVec 20) :
    encodeWord op imm idx rc p &&& encodeWord op' imm' idx' rc' p' =
      encodeWord (op &&& op') (imm && imm') (idx && idx') (rc &&& rc') (p &&& p') := by
  apply BitVec.eq_of_getLsbD_eq
  intro i hi
  simp only [BitVec.getLsbD_and, encodeWord_getLsbD]
  split_ifs <;> rfl

theorem opField_and (v w : Word) : opField (v &&& w) = opField v &&& opField w := BitVec.extractLsb'_and

theorem immField_and (v w : Word) : immField (v &&& w) = (immField v && immField w) := BitVec.getLsbD_and

/-! ## The canonical word, by the families of the opcode table (R92, R94) -/

/-- The rows 2..7 name a field over every bit but `idx` under `imm`. -/
theorem significantMask_of_rc {w : Word} (h : 2 ≤ (opField w).toNat ∧ (opField w).toNat ≤ 7) :
    significantMask w = encodeWord 63 true (!immField w) 15 0xFFFFF := by
  obtain ⟨hlo, hhi⟩ := h
  unfold significantMask
  generalize (opField w).toNat = n at hlo hhi
  interval_cases n <;> cases immField w <;> rfl

/-- PUSH and POP ignore `rc` besides. -/
theorem significantMask_of_stack {w : Word} (h : 9 ≤ (opField w).toNat ∧ (opField w).toNat ≤ 10) :
    significantMask w = encodeWord 63 true (!immField w) 0 0xFFFFF := by
  obtain ⟨hlo, hhi⟩ := h
  unfold significantMask
  generalize (opField w).toNat = n at hlo hhi
  interval_cases n <;> cases immField w <;> rfl

/-- The rows without an operand and the unknown opcodes name `op` alone. -/
theorem significantMask_of_bare {w : Word}
    (h : (opField w).toNat ≤ 1 ∨ (opField w).toNat = 8 ∨ 11 ≤ (opField w).toNat) :
    significantMask w = encodeWord 63 false false 0 0 := by
  unfold significantMask
  generalize (opField w).toNat = n at h
  obtain hlow | rfl | hhigh := h
  · interval_cases n <;> rfl
  · rfl
  · obtain ⟨m, rfl⟩ := Nat.exists_eq_add_of_le' hhigh
    rfl

/-- The families of the opcode table by what their rows name. -/
theorem op_family (op : BitVec 6) :
    (op.toNat ≤ 1 ∨ op.toNat = 8 ∨ 11 ≤ op.toNat) ∨ (2 ≤ op.toNat ∧ op.toNat ≤ 7) ∨ (9 ≤ op.toNat ∧ op.toNat ≤ 10) := by
  omega

theorem opField_significantMask (w : Word) : opField (significantMask w) = BitVec.allOnes 6 := by
  obtain h | h | h := op_family (opField w)
  · rw [significantMask_of_bare h, opField_encodeWord]; rfl
  · rw [significantMask_of_rc h, opField_encodeWord]; rfl
  · rw [significantMask_of_stack h, opField_encodeWord]; rfl

/-- The canonical word keeps its opcode. -/
theorem opField_canonicalWord (w : Word) : opField (canonicalWord w) = opField w := by
  rw [canonicalWord, opField_and, opField_significantMask, BitVec.and_allOnes]

/-- A mask that takes the whole of `op`, acting on a word's fields. -/
theorem and_encodeWord (w : Word) (imm idx : Bool) (rc : BitVec 4) (p : BitVec 20) :
    w &&& encodeWord 63 imm idx rc p =
      encodeWord (opField w) (immField w && imm) (idxField w && idx) (rcField w &&& rc) (payloadField w &&& p) := by
  have hop : opField w &&& 63 = opField w := BitVec.and_allOnes
  conv_lhs => rw [← encodeWord_fields w, encodeWord_and, hop]

theorem canonicalWord_of_rc {w : Word} (h : 2 ≤ (opField w).toNat ∧ (opField w).toNat ≤ 7) :
    canonicalWord w = encodeWord (opField w) (immField w) (idxField w && !immField w) (rcField w) (payloadField w) := by
  have hrc : rcField w &&& 15 = rcField w := BitVec.and_allOnes
  have hpay : payloadField w &&& 0xFFFFF = payloadField w := BitVec.and_allOnes
  rw [canonicalWord, significantMask_of_rc h, and_encodeWord, hrc, hpay, Bool.and_true]

theorem canonicalWord_of_stack {w : Word} (h : 9 ≤ (opField w).toNat ∧ (opField w).toNat ≤ 10) :
    canonicalWord w = encodeWord (opField w) (immField w) (idxField w && !immField w) 0 (payloadField w) := by
  have hrc : rcField w &&& 0 = 0 := BitVec.and_zero
  have hpay : payloadField w &&& 0xFFFFF = payloadField w := BitVec.and_allOnes
  rw [canonicalWord, significantMask_of_stack h, and_encodeWord, hrc, hpay, Bool.and_true]

theorem canonicalWord_of_bare {w : Word}
    (h : (opField w).toNat ≤ 1 ∨ (opField w).toNat = 8 ∨ 11 ≤ (opField w).toNat) :
    canonicalWord w = encodeOp (opField w) := by
  have hrc : rcField w &&& 0 = 0 := BitVec.and_zero
  have hpay : payloadField w &&& 0 = 0 := BitVec.and_zero
  rw [canonicalWord, significantMask_of_bare h, and_encodeWord, hrc, hpay, Bool.and_false, Bool.and_false, encodeOp]

/-! ## Encoding what was decoded -/

/-- The operand of a word in each mode, put back: the payload as it was (R86 to R88, R94). -/
theorem encodeImm_value (op : BitVec 6) (rc : BitVec 4) (w : Word) :
    encodeImm op rc (decodeFields w).value = encodeWord op true false rc (payloadField w) := by
  have hpay : ((payloadField w).signExtend 32).extractLsb' 0 20 = payloadField w := by
    apply BitVec.eq_of_getLsbD_eq
    intro i hi
    have hlt : i < 32 := by omega
    rw [BitVec.getLsbD_extractLsb', Nat.zero_add, BitVec.getLsbD_signExtend]
    simp only [hi, hlt, decide_true, Bool.true_and, if_true]
  rw [encodeImm, decodeFields, hpay]

theorem encodeAbs_address (op : BitVec 6) (rc : BitVec 4) (w : Word) :
    encodeAbs op rc (decodeFields w).address = encodeWord op false false rc (payloadField w) := by
  have hpay : ((payloadField w).setWidth 32).extractLsb' 0 20 = payloadField w := by
    apply BitVec.eq_of_getLsbD_eq
    intro i hi
    have hlt : i < 32 := by omega
    simp [hi, hlt]
  rw [encodeAbs, decodeFields, hpay]

theorem encodeIdx_offset (op : BitVec 6) (rc : BitVec 4) (w : Word) :
    encodeIdx op rc (decodeFields w).base (decodeFields w).offset = encodeWord op false true rc (payloadField w) := by
  have hpay : (((offsetField w).signExtend 32).extractLsb' 0 16 ++ baseField w : BitVec (16 + 4)) = payloadField w := by
    apply BitVec.eq_of_getLsbD_eq
    intro i hi
    rw [BitVec.getLsbD_append]
    by_cases h4 : i < 4
    · simp [baseField, payloadField, h4, hi]
    · have h16 : i - 4 < 16 := by omega
      have h32 : i - 4 < 32 := by omega
      have hback : 16 + (i - 4) = 12 + i := by omega
      rw [if_neg h4, BitVec.getLsbD_extractLsb', Nat.zero_add, BitVec.getLsbD_signExtend, if_pos h16, offsetField,
        payloadField, BitVec.getLsbD_extractLsb', BitVec.getLsbD_extractLsb', hback]
      simp only [h16, h32, hi, decide_true, Bool.true_and]
  rw [encodeIdx, decodeFields, hpay]

/-! ## The rows of the opcode table -/

/-- The opcodes of the four instructions that take no literal (40_cycle_and_operands.md R131). -/
def takesNoLiteral (op : BitVec 6) : Bool := op == 3 || op == 6 || op == 7 || op == 10

theorem takesNoLiteral_iff (op : BitVec 6) :
    takesNoLiteral op = true ↔ op.toNat = 3 ∨ op.toNat = 6 ∨ op.toNat = 7 ∨ op.toNat = 10 := by
  revert op; decide

/-- The row a word belongs to: the canonical word of the row, and for each instruction the row can hold its encoding, the
range of its operand, and whether it is one of the illegal forms. -/
inductive Row (w : Word) : Instr → Prop where
  /-- no operand: ILLOP, NOP, RET, HALT and the unknown opcodes -/
  | bare (i : Instr) (hcanon : canonicalWord w = encodeOp (opField w)) (henc : encode i = encodeOp (opField w))
      (hwf : i.wf = true) (hform : illegalForm i = false) (hlit : takesNoLiteral (opField w) = false) : Row w i
  /-- an operand in one of the three modes (R85) -/
  | operand (rc : BitVec 4) (onImm onIdx onAbs : Instr)
      (hcanon : canonicalWord w =
        encodeWord (opField w) (immField w) (idxField w && !immField w) rc (payloadField w))
      (himm : encode onImm = encodeImm (opField w) rc (decodeFields w).value)
      (hidx : encode onIdx = encodeIdx (opField w) rc (decodeFields w).base (decodeFields w).offset)
      (habs : encode onAbs = encodeAbs (opField w) rc (decodeFields w).address)
      (hwf : onImm.wf = fitsValue (decodeFields w).value ∧ onIdx.wf = fitsOffset (decodeFields w).offset ∧
        onAbs.wf = fitsAddress (decodeFields w).address)
      (hform : illegalForm onImm = takesNoLiteral (opField w) ∧ illegalForm onIdx = false ∧ illegalForm onAbs = false) :
      Row w (selectMode (decodeFields w) onImm onIdx onAbs)

theorem Row.of_bare {w : Word} {op : BitVec 6} {i : Instr} (hop : (opField w).toNat = op.toNat)
    (hrow : op.toNat ≤ 1 ∨ op.toNat = 8 ∨ 11 ≤ op.toNat) (henc : encode i = encodeOp op) (hwf : i.wf = true)
    (hform : illegalForm i = false) : Row w i := by
  obtain rfl : opField w = op := BitVec.eq_of_toNat_eq hop
  have hlit : takesNoLiteral (opField w) = false := by
    rw [← Bool.not_eq_true, takesNoLiteral_iff]
    omega
  exact .bare i (canonicalWord_of_bare hrow) henc hwf hform hlit

theorem Row.of_rc {w : Word} {op : BitVec 6} {onImm onIdx onAbs : Instr} (hop : (opField w).toNat = op.toNat)
    (hrow : 2 ≤ op.toNat ∧ op.toNat ≤ 7)
    (himm : encode onImm = encodeImm op (rcField w) (decodeFields w).value)
    (hidx : encode onIdx = encodeIdx op (rcField w) (decodeFields w).base (decodeFields w).offset)
    (habs : encode onAbs = encodeAbs op (rcField w) (decodeFields w).address)
    (hwf : onImm.wf = fitsValue (decodeFields w).value ∧ onIdx.wf = fitsOffset (decodeFields w).offset ∧
      onAbs.wf = fitsAddress (decodeFields w).address)
    (hform : illegalForm onImm = takesNoLiteral op ∧ illegalForm onIdx = false ∧ illegalForm onAbs = false) :
    Row w (selectMode (decodeFields w) onImm onIdx onAbs) := by
  obtain rfl : opField w = op := BitVec.eq_of_toNat_eq hop
  exact .operand _ _ _ _ (canonicalWord_of_rc hrow) himm hidx habs hwf hform

theorem Row.of_stack {w : Word} {op : BitVec 6} {onImm onIdx onAbs : Instr} (hop : (opField w).toNat = op.toNat)
    (hrow : 9 ≤ op.toNat ∧ op.toNat ≤ 10)
    (himm : encode onImm = encodeImm op 0 (decodeFields w).value)
    (hidx : encode onIdx = encodeIdx op 0 (decodeFields w).base (decodeFields w).offset)
    (habs : encode onAbs = encodeAbs op 0 (decodeFields w).address)
    (hwf : onImm.wf = fitsValue (decodeFields w).value ∧ onIdx.wf = fitsOffset (decodeFields w).offset ∧
      onAbs.wf = fitsAddress (decodeFields w).address)
    (hform : illegalForm onImm = takesNoLiteral op ∧ illegalForm onIdx = false ∧ illegalForm onAbs = false) :
    Row w (selectMode (decodeFields w) onImm onIdx onAbs) := by
  obtain rfl : opField w = op := BitVec.eq_of_toNat_eq hop
  exact .operand _ _ _ _ (canonicalWord_of_stack hrow) himm hidx habs hwf hform

/-- The inversion of the decoder: every word belongs to a row, and decodes to that row's instruction. -/
theorem decode_row (w : Word) : Row w (decode w) := by
  rw [decode, toInstr]
  split
  next h => exact .of_bare (op := 0) h (by decide) rfl rfl rfl
  next h => exact .of_bare (op := 1) h (by decide) rfl rfl rfl
  next h => exact .of_rc (op := 2) h (by decide) rfl rfl rfl ⟨rfl, rfl, rfl⟩ ⟨rfl, rfl, rfl⟩
  next h => exact .of_rc (op := 3) h (by decide) rfl rfl rfl ⟨rfl, rfl, rfl⟩ ⟨rfl, rfl, rfl⟩
  next h => exact .of_rc (op := 4) h (by decide) rfl rfl rfl ⟨rfl, rfl, rfl⟩ ⟨rfl, rfl, rfl⟩
  next h => exact .of_rc (op := 5) h (by decide) rfl rfl rfl ⟨rfl, rfl, rfl⟩ ⟨rfl, rfl, rfl⟩
  next h => exact .of_rc (op := 6) h (by decide) rfl rfl rfl ⟨rfl, rfl, rfl⟩ ⟨rfl, rfl, rfl⟩
  next h => exact .of_rc (op := 7) h (by decide) rfl rfl rfl ⟨rfl, rfl, rfl⟩ ⟨rfl, rfl, rfl⟩
  next h => exact .of_bare (op := 8) h (by decide) rfl rfl rfl
  next h => exact .of_stack (op := 9) h (by decide) rfl rfl rfl ⟨rfl, rfl, rfl⟩ ⟨rfl, rfl, rfl⟩
  next h => exact .of_stack (op := 10) h (by decide) rfl rfl rfl ⟨rfl, rfl, rfl⟩ ⟨rfl, rfl, rfl⟩
  next h => exact .of_bare (op := 11) h (by decide) rfl rfl rfl
  next =>
    simp only [imp_false] at *
    have hgt : 11 < (decodeFields w).op.toNat := by omega
    have hlt : (decodeFields w).op.toNat < 64 := (decodeFields w).op.isLt
    split_ifs with h16 h32
    · exact .of_bare rfl (.inr (.inr hgt.le)) rfl (decide_eq_true ⟨hgt, h16⟩) rfl
    · exact .of_bare rfl (.inr (.inr hgt.le)) rfl (decide_eq_true ⟨by omega, h32⟩) rfl
    · exact .of_bare rfl (.inr (.inr hgt.le)) rfl (decide_eq_true ⟨by omega, hlt⟩) rfl

/-- The mode of a word by its two mode bits (R85). -/
theorem selectMode_fields (w : Word) (onImm onIdx onAbs : Instr) :
    selectMode (decodeFields w) onImm onIdx onAbs =
      if immField w then onImm else if idxField w then onIdx else onAbs := rfl

/-- In each row the encoder puts back the fields the row names, `idx` only where `imm` is 0 (R94). -/
theorem Row.encode_eq {w : Word} {i : Instr} (h : Row w i) : encode i = canonicalWord w := by
  cases h with
  | bare _ hcanon henc => rw [henc, hcanon]
  | operand rc onImm onIdx onAbs hcanon himm hidx habs =>
    rw [hcanon, selectMode_fields]
    cases immField w with
    | true => simp [himm, encodeImm_value]
    | false =>
      cases idxField w with
      | true => simp [hidx, encodeIdx_offset]
      | false => simp [habs, encodeAbs_address]

/-- Each operand the decoder reads is the extension of a payload field, hence in range. -/
theorem Row.wf {w : Word} {i : Instr} (h : Row w i) : i.wf = true := by
  cases h with
  | bare _ _ _ hwf => exact hwf
  | operand rc onImm onIdx onAbs _ _ _ _ hwf =>
    obtain ⟨himm, hidx, habs⟩ := hwf
    rw [selectMode_fields]
    split_ifs
    · exact himm.trans (fitsValue_signExtend _)
    · exact hidx.trans (fitsOffset_signExtend _)
    · exact habs.trans (fitsAddress_setWidth _)

/-- A word holds an illegal form exactly when its opcode takes no literal and `imm` is 1 (R131). -/
theorem Row.illegalForm_eq {w : Word} {i : Instr} (h : Row w i) :
    illegalForm i = (immField w && takesNoLiteral (opField w)) := by
  cases h with
  | bare _ _ _ _ hform hlit => rw [hform, hlit, Bool.and_false]
  | operand rc onImm onIdx onAbs _ _ _ _ _ hform =>
    obtain ⟨himm, hidx, habs⟩ := hform
    rw [selectMode_fields]
    split_ifs <;> simp [*]

/-- Settles O2: the row the word belongs to, encoded. -/
theorem encodeDecodeCanonical : Obligations.EncodeDecodeCanonical := fun w => (decode_row w).encode_eq

/-- Settles O3: the row the word belongs to holds well-formed instructions only. -/
theorem decodedInstructionIsWellFormed : Obligations.DecodedInstructionIsWellFormed := fun w => (decode_row w).wf

/-! ## What an opcode does not consult -/

/-- `op` and `imm` decide an illegal form; every other word is consulted as far as its row names fields (R92). -/
theorem consultedMask_eq (w : Word) :
    consultedMask w = if illegalForm (decode w) then 0x7F#32 else significantMask w := by
  rw [(decode_row w).illegalForm_eq]
  cases hlit : takesNoLiteral (opField w) with
  | true =>
    obtain hop | hop | hop | hop := (takesNoLiteral_iff _).1 hlit <;>
      simp only [consultedMask, significantMask, hop] <;> cases immField w <;> rfl
  | false =>
    rw [← Bool.not_eq_true, takesNoLiteral_iff] at hlit
    rw [Bool.and_false, consultedMask]
    split
    next => omega
    next => omega
    next => omega
    next => omega
    next => rfl

theorem exec_illegalForm {i : Instr} (h : illegalForm i = true) (s : State) :
    exec i s = .next (s.raised .immediateValue s.ia) := by
  cases i with
  | storeImm r v => exact storeWord_immediate r v s
  | branchImm c v => exact branchTo_immediate c v s
  | callImm c v => exact callTo_immediate c v s
  | popImm v => exact popTo_immediate v s
  | _ => cases h

/-- Words with one canonical form decode to one instruction: decoding undoes encoding. -/
theorem decode_eq_of_canonicalWord_eq {w w' : Word} (h : canonicalWord w = canonicalWord w') : decode w = decode w' := by
  have hback : ∀ v : Word, decode (canonicalWord v) = decode v := fun v => by
    rw [← encodeDecodeCanonical v]
    exact decodeEncodeRoundTrip _ (decodedInstructionIsWellFormed v)
  rw [← hback w, h, hback w']

/-- Every row consults the whole of `op`. -/
theorem opField_and_consultedMask (w : Word) : opField (w &&& consultedMask w) = opField w := by
  have hmask : opField (consultedMask w) = BitVec.allOnes 6 := by
    rw [consultedMask_eq]
    split_ifs
    · decide
    · exact opField_significantMask w
  rw [opField_and, hmask, BitVec.and_allOnes]

/-- An opcode that takes no literal consults `imm`. -/
theorem immField_and_consultedMask {w : Word} (hlit : takesNoLiteral (opField w) = true) :
    immField (w &&& consultedMask w) = immField w := by
  have hmask : immField (consultedMask w) = true := by
    rw [consultedMask_eq]
    split_ifs
    · decide
    · obtain h | h | h := op_family (opField w)
      · have hop := (takesNoLiteral_iff _).1 hlit
        omega
      · rw [significantMask_of_rc h, immField_encodeWord]
      · rw [significantMask_of_stack h, immField_encodeWord]
  rw [immField_and, hmask, Bool.and_true]

/-- Words that agree on what they consult agree on `op` and, where `imm` can make a form illegal, on `imm`. -/
theorem illegalForm_eq_of_consulted_eq {w w' : Word} (h : w &&& consultedMask w = w' &&& consultedMask w') :
    illegalForm (decode w) = illegalForm (decode w') := by
  have hop : opField w = opField w' := by
    rw [← opField_and_consultedMask w, h, opField_and_consultedMask]
  rw [(decode_row w).illegalForm_eq, (decode_row w').illegalForm_eq]
  cases hlit : takesNoLiteral (opField w) with
  | false => rw [← hop, hlit, Bool.and_false, Bool.and_false]
  | true =>
    have hlit' : takesNoLiteral (opField w') = true := hop ▸ hlit
    rw [hlit', ← immField_and_consultedMask hlit, h, immField_and_consultedMask hlit']

/-- Settles O4: either both words hold an illegal form, and those read no field, or both have one canonical word. -/
theorem unconsultedBitsHaveNoEffect : Obligations.UnconsultedBitsHaveNoEffect := by
  intro w w' s h
  have hforms := illegalForm_eq_of_consulted_eq h
  cases hform : illegalForm (decode w) with
  | true => rw [exec_illegalForm hform, exec_illegalForm (hforms ▸ hform)]
  | false =>
    have hform' : illegalForm (decode w') = false := hforms ▸ hform
    have hcanon : canonicalWord w = canonicalWord w' := by
      simpa [consultedMask_eq, hform, hform', canonicalWord] using h
    rw [decode_eq_of_canonicalWord_eq hcanon]

/-- Settles O5: closed words, each decoded by evaluation. -/
theorem workedEncodingsDecode : Obligations.WorkedEncodingsDecode := by
  unfold Obligations.WorkedEncodingsDecode
  decide

end Sys2Proof.Proofs.EncodeDecode

/-! The cycle (40_cycle_and_operands.md section 1) and the run states (70_reset_and_hazards.md section 3): one step from
each run state, a run from a state that steps to itself, and HALT. -/

namespace Sys2Proof.Proofs.RunStates

open Sys2Proof.Machine Sys2Proof.Safety Sys2Proof.Proofs.NopStep Sys2Proof.Proofs.LoadedText

/-! ## One step from each run state -/

/-- Settles O6: the cycle's equation where the fetch check passes. -/
theorem stepRunsDecodedInstruction : Obligations.StepRunsDecodedInstruction := by
  rintro s i hrun hpc rfl -
  exact step_of_fetched hrun hpc

theorem step_of_fetch_fault {s : State} (hrun : s.run = .running) (hpc : s.textSize ≤ s.pc) :
    step s = .next (s.raised .segmentText (fetchFaultAddr segTextReport s.pc)) := by
  rw [step_running hrun, cycle_eq, if_neg (BitVec.not_lt.2 hpc)]

/-- What a raise leaves alone: everything but RUN and the fault record (60_exceptions.md R220). -/
theorem sameLimits_raised (s : State) (k : FaultKind) (addr : Word) : SameLimits s (s.raised k addr) :=
  ⟨fun _ => rfl, rfl, rfl, rfl⟩

/-- Settles O7: the fetch fault is a raise on the state before the increment of pc. -/
theorem fetchPastTextRaisesSegmentText : Obligations.FetchPastTextRaisesSegmentText := fun s hrun hpc =>
  ⟨_, step_of_fetch_fault hrun hpc, ⟨rfl, rfl, rfl⟩, s.raised_pc _ _, s.raised_sp _ _, s.raised_cc _ _,
    s.raised_reg _ _, s.raised_dataWord _ _, sameLimits_raised s _ _⟩

theorem step_of_terminal {s : State} (h : Terminal s) : step s = .next s := by
  obtain hrun | hrun := h <;> simp only [step, stepRequest, hrun]

theorem step_of_unloaded {s : State} (h : s.run = .unloaded) : step s = .refused .unloaded := by
  simp only [step, stepRequest, h]

/-! ## Runs -/

theorem runFor_succ_of_next {n : Nat} {s t : State} (h : step s = .next t) : runFor (n + 1) s = runFor n t := by
  simp only [runFor, h]

theorem runFor_zero {s : State} (h : s.run ≠ .unloaded) : runFor 0 s = .next s := by
  simp only [runFor]

/-- A state that steps to itself is where a run of any length ends. -/
theorem runFor_of_fixed {s : State} (hrun : s.run ≠ .unloaded) (h : step s = .next s) : ∀ n, runFor n s = .next s
  | 0 => runFor_zero hrun
  | n + 1 => (runFor_succ_of_next h).trans (runFor_of_fixed hrun h n)

theorem ne_unloaded_of_terminal {s : State} (h : Terminal s) : s.run ≠ .unloaded := by
  obtain hrun | hrun := h <;> simp [hrun]

/-- Settles O8: a terminal state steps to itself, so a run from it ends where it began. -/
theorem terminalStatesAreFixed : Obligations.TerminalStatesAreFixed := fun _ n h =>
  ⟨step_of_terminal h, runFor_of_fixed (ne_unloaded_of_terminal h) (step_of_terminal h) n⟩

/-- Settles O9: a run is refused at its start, whatever its length. -/
theorem unloadedIsRefused : Obligations.UnloadedIsRefused := by
  intro s n hrun
  refine ⟨step_of_unloaded hrun, ?_⟩
  cases n with
  | zero => simp only [runFor, hrun]
  | succ n => simp only [runFor, step_of_unloaded hrun]

/-! ## HALT -/

theorem exec_halt (s : State) : exec .halt s = .next (s.setRun .halted) := rfl

/-- The row of op 11 has no addressing mode (30_encoding.md R89). -/
theorem decode_eq_halt_of_opField {w : Word} (hop : opField w = 11) : decode w = .halt := by
  have hrow : (decodeFields w).op = 11 := hop
  simp [decode, toInstr, hrow]

/-- No other row decodes to HALT: its canonical word has op 11. -/
theorem opField_of_decode_eq_halt {w : Word} (h : decode w = .halt) : opField w = 11 := by
  rw [← EncodeDecode.opField_canonicalWord, ← EncodeDecode.encodeDecodeCanonical w, h]
  exact Laws.OpcodeField.halt

/-- From Running only HALT reaches Halted: any other instruction keeps RUN or raises. -/
theorem eq_halt_of_exec_halted {i : Instr} {s t : State} (h : exec i s = .next t) (hrun : s.run = .running)
    (ht : t.run = .halted) : i = .halt := by
  cases exec_leaves h with
  | halted hi => exact hi
  | unchanged | register | stored | jumped | pushed | called | popped | returned => cases hrun.symm.trans ht
  | raised | raisedStack => cases ht

/-- Settles O12: HALT writes RUN alone, the state it leaves is terminal, and no other instruction leaves a Halted one. -/
theorem haltIsTheOnlySuccessfulTermination : Obligations.HaltIsTheOnlySuccessfulTermination := by
  refine ⟨exec_halt, fun s hrun hpc hop => ⟨?_, rfl, fun n => ?_⟩, fun s t hrun hstep ht => ?_⟩
  · rw [step_of_fetched hrun hpc, decode_eq_halt_of_opField hop, exec_halt]
  · exact runFor_of_fixed (by simp) (step_of_terminal (.inl rfl)) n
  · obtain ⟨hterm, rfl⟩ | ⟨-, -, rfl⟩ | ⟨-, hpc, hexec⟩ := step_cases hstep
    · simp [hrun] at hterm
    · cases ht
    · exact ⟨hpc, opField_of_decode_eq_halt (eq_halt_of_exec_halted hexec hrun ht)⟩

end Sys2Proof.Proofs.RunStates

/-! What every instruction leaves alone (10_state.md sections 2 to 7, 20_memory.md section 3, 60_exceptions.md section 9),
each frame by the cases of what exec leaves. -/

namespace Sys2Proof.Proofs.Frames

open Sys2Proof.Machine Sys2Proof.Safety

/-- Settles O36: a state with RUN Faulted is left by a raise, whose kind is listed. -/
theorem onlyListedFaultsAreRaised : Obligations.OnlyListedFaultsAreRaised := by
  intro i s t hrun h ht
  cases exec_leaves h with
  | raised k hk => exact ⟨k, hk, rfl⟩
  | raisedStack _ hk => exact ⟨.segmentStack, hk, rfl⟩
  | unchanged | register | stored | jumped | pushed | called | popped | returned => cases hrun.symm.trans ht
  | halted => cases ht

/-- Settles O38: only the case of a register write touches either, and its register is the destination. -/
theorem onlyLoadAddSubWriteRegistersAndCc : Obligations.OnlyLoadAddSubWriteRegistersAndCc := by
  intro i s t h
  cases exec_leaves h with
  | register rd v hd =>
    refine ⟨fun r hr => ?_, fun hnone => ?_⟩
    · have hne : r ≠ rd := fun e => hr (e ▸ hd)
      exact s.reg_setReg_of_ne v hne
    · cases hd.symm.trans hnone
  | unchanged | stored | jumped | pushed | called | popped | returned | halted | raised | raisedStack =>
    exact ⟨fun _ _ => rfl, fun _ => rfl⟩

/-- A data write at the stored address is invisible at any other. -/
theorem dataWord_setData_of_stored {i : Instr} {s : State} {b a : Word} (u : State) (v : Word)
    (hs : storedAddress i s = some b) (ha : storedAddress i s ≠ some a) : (u.setData b v).dataWord a = u.dataWord a :=
  u.dataWord_setData_of_ne v fun e => ha (e ▸ hs)

/-- Settles O39: the four cases that write data name the stored address. -/
theorem onlyStackAndStoresWriteData : Obligations.OnlyStackAndStoresWriteData := by
  intro i s t h a ha
  cases exec_leaves h with
  | stored _ v _ _ _ hs => exact dataWord_setData_of_stored s v hs ha
  | pushed v _ _ _ _ hs => exact dataWord_setData_of_stored (s.setSp _) v hs ha
  | called _ _ _ _ _ hs => exact dataWord_setData_of_stored (s.setSp _) s.pc hs ha
  | popped _ v _ _ _ _ hs => exact dataWord_setData_of_stored (s.setSp _) v hs ha
  | unchanged | register | jumped | returned | halted | raised | raisedStack => rfl

/-- Settles O40: the three cases that set pc are those of the transfers. -/
theorem otherInstructionsFallThrough : Obligations.OtherInstructionsFallThrough := by
  intro i s t h hi
  cases exec_leaves h with
  | jumped _ _ ht | called _ _ ht | returned _ _ ht => cases hi.symm.trans ht
  | unchanged | register | stored | pushed | popped | halted | raised | raisedStack => rfl

theorem exec_keeps_limits {i : Instr} {s t : State} (h : exec i s = .next t) : SameLimits s t := by
  cases exec_leaves h <;> exact ⟨fun _ => rfl, rfl, rfl, rfl⟩

/-- The fetch's increment of pc moves no limit, so a frame behind it is a frame before it. -/
theorem sameLimits_of_setPc {s t : State} {v : Word} (h : SameLimits (s.setPc v) t) : SameLimits s t := h

/-- Settles O41: a fetch moves pc only, and no instruction touches text or a size. -/
theorem stepKeepsTextAndSizes : Obligations.StepKeepsTextAndSizes := by
  intro s t h
  obtain ⟨-, rfl⟩ | ⟨-, -, rfl⟩ | ⟨-, -, hexec⟩ := step_cases h
  · exact ⟨fun _ => rfl, rfl, rfl, rfl⟩
  · exact ⟨fun _ => rfl, rfl, rfl, rfl⟩
  · exact sameLimits_of_setPc (exec_keeps_limits hexec)

theorem exec_cc_ne_undefined {i : Instr} {s t : State} (h : exec i s = .next t) (hcc : s.cc ≠ .undefined) :
    t.cc ≠ .undefined := by
  cases exec_leaves h with
  | register rd v => exact SignClassifier.classify_ne_undefined v
  | unchanged | stored | jumped | pushed | called | popped | returned | halted | raised | raisedStack => exact hcc

/-- Settles O42: cc is written by the classifier alone, which never answers Undefined. -/
theorem ccNeverReturnsToUndefined : Obligations.CcNeverReturnsToUndefined := by
  intro s t h hcc
  obtain ⟨-, rfl⟩ | ⟨-, -, rfl⟩ | ⟨-, -, hexec⟩ := step_cases h
  · exact hcc
  · exact hcc
  · exact exec_cc_ne_undefined hexec hcc

/-- What an instruction leaves that faults: the state it was given, sp adjusted where the stack check raised, with a fault
record (40_cycle_and_operands.md R139). -/
theorem exec_faulted {i : Instr} {s t : State} (h : exec i s = .next t) (hrun : s.run = .running)
    (ht : t.run = .faulted) :
    (∃ k, k ≠ .segmentStack ∧ t = s.raised k s.ia) ∨
      ∃ sp', (sp' = s.sp - 1#32 ∨ sp' = s.sp + 1#32) ∧ t = (s.setSp sp').raised .segmentStack s.ia := by
  cases exec_leaves h with
  | raised k _ hn => exact .inl ⟨k, hn, rfl⟩
  | raisedStack sp' _ _ hsp => exact .inr ⟨sp', hsp, rfl⟩
  | unchanged | register | stored | jumped | pushed | called | popped | returned => cases hrun.symm.trans ht
  | halted => cases ht

/-- Settles O37: a fault of the fetch check or of the instruction, each a raise on a state that differs from the first in
pc and sp at most. -/
theorem faultingStepWritesNoRegisterOrData : Obligations.FaultingStepWritesNoRegisterOrData := by
  intro s t hrun hstep ht
  have hlimits := stepKeepsTextAndSizes s t hstep
  obtain ⟨hterm, -⟩ | ⟨-, hpc, rfl⟩ | ⟨-, hpc, hexec⟩ := step_cases hstep
  · simp [hrun] at hterm
  · exact ⟨fun _ => rfl, rfl, fun _ => rfl, hlimits, fun hlt => absurd hpc (BitVec.not_le.2 hlt), fun _ => rfl,
      fun _ => rfl, fun hk => by cases hk⟩
  · have hin : ¬ s.textSize ≤ s.pc := BitVec.not_le.2 hpc
    obtain ⟨k, hk, rfl⟩ | ⟨sp', hsp, rfl⟩ := exec_faulted hexec hrun ht
    · exact ⟨fun _ => rfl, rfl, fun _ => rfl, hlimits, fun _ => rfl, fun hle => absurd hle hin, fun _ => rfl,
        fun hstack => absurd (Option.some.inj hstack) hk⟩
    · exact ⟨fun _ => rfl, rfl, fun _ => rfl, hlimits, fun _ => rfl, fun hle => absurd hle hin,
        fun hn => absurd rfl hn, fun _ => hsp⟩

end Sys2Proof.Proofs.Frames

/-! Load, which is the reset (70_reset_and_hazards.md sections 1 and 2), and the observation ports (10_state.md R38). -/

namespace Sys2Proof.Proofs.LoadAndPorts

open Sys2Proof.Machine Sys2Proof.Safety Sys2Proof.Proofs.LoadedText

/-! ## Which loads are accepted -/

theorem loadImage_of_beyond {cap : Config.Capacity} {img : Image}
    (h : cap.textCap < img.textSize ∨ cap.dataCap < img.dataSize) (addr : Word) (s : State) :
    loadImage cap img addr s = .refused .beyondCapacity := if_pos h

theorem not_beyond {cap : Config.Capacity} {img : Image} (ht : img.textSize ≤ cap.textCap)
    (hd : img.dataSize ≤ cap.dataCap) : ¬ (cap.textCap < img.textSize ∨ cap.dataCap < img.dataSize) :=
  not_or.2 ⟨BitVec.not_lt.2 ht, BitVec.not_lt.2 hd⟩

/-- Within the capacities the array lengths decide (R254). -/
theorem loadImage_of_within {cap : Config.Capacity} {img : Image} (ht : img.textSize ≤ cap.textCap)
    (hd : img.dataSize ≤ cap.dataCap) (addr : Word) (s : State) :
    loadImage cap img addr s =
      if img.text.length ≠ img.textSize.toNat ∨ img.data.length ≠ img.dataSize.toNat then .refused .imageLength
      else .next (img.loaded addr) := if_neg (not_beyond ht hd)

/-- Settles O46: the capacities are compared first, then the array lengths. -/
theorem loadOutsideItsDutiesIsRefused : Obligations.LoadOutsideItsDutiesIsRefused := fun _ _ addr s =>
  ⟨fun h => loadImage_of_beyond h addr s, fun ht hd h => (loadImage_of_within ht hd addr s).trans (if_pos h)⟩

/-- An accepted load names exactly data_size data words, as it names text_size text words. -/
theorem loadImage_next_data {cap : Config.Capacity} {img : Image} {addr : Word} {s0 s : State}
    (h : loadImage cap img addr s0 = .next s) : img.data.length = img.dataSize.toNat := by
  rw [loadImage] at h
  split_ifs at h with hcap hlen
  exact not_not.1 (not_or.1 hlen).2

/-! ## What an accepted load leaves -/

theorem reg_of_zeroed {s : State} (h : s.regs = Vector.replicate 16 0) (r : RegId) : s.reg r = 0 := by
  simp [State.reg, h]

/-- A loaded data word below data_size is the image's word of that index, in the stack window too (10_state.md R32). -/
theorem loaded_dataWord {img : Image} (addr : Word) {a : Word} (hlen : img.data.length = img.dataSize.toNat)
    (ha : a < img.dataSize) : img.data[a.toNat]? = some ((img.loaded addr).dataWord a) := by
  have hidx : a.toNat < img.data.length := hlen ▸ BitVec.lt_def.1 ha
  simp [State.dataWord, Image.loaded, Memory.read_ofWords, hidx]

/-- Settles O45: within its duties load answers the image's state, whose arrays read as the image's words. -/
theorem loadInstallsTheImage : Obligations.LoadInstallsTheImage := by
  intro cap img addr s ht hd htext hdata
  have hlengths : ¬ (img.text.length ≠ img.textSize.toNat ∨ img.data.length ≠ img.dataSize.toNat) :=
    not_or.2 ⟨not_not.2 htext, not_not.2 hdata⟩
  exact ⟨img.loaded addr, (loadImage_of_within ht hd addr s).trans (if_neg hlengths), reg_of_zeroed rfl, rfl, rfl, rfl,
    rfl, rfl, rfl, fun _ => loaded_textWord addr htext, fun _ => loaded_dataWord addr hdata, rfl, rfl⟩

/-- Settles O47: the arrays are canonical because they are built from lists of their size; sp is where load puts it. -/
theorem loadedStateIsSound : Obligations.LoadedStateIsSound := by
  intro cap img addr s t h
  have hdata := loadImage_next_data h
  obtain ⟨rfl, htext⟩ := loadImage_next h
  exact {
    text_wf := Memory.wf_ofWords img.text _ htext.le
    data_wf := Memory.wf_ofWords img.data _ hdata.le
    stack := fun _ => .inl rfl
    no_fault := fun _ => rfl
    fault := fun hrun => by cases hrun }

/-! ## The reset state -/

/-- Settles O43: the fields of the reset state, with its sp the 2^32 - 1 that data_size - 1 is for no data words. -/
theorem resetHoldsTheLoadValues : Obligations.ResetHoldsTheLoadValues :=
  ⟨reg_of_zeroed rfl, rfl, rfl, by decide, rfl, rfl⟩

/-- Settles O44: the reset state is what load leaves for the empty program, up to FAULT_ADDR. -/
theorem resetIsSound : Obligations.ResetIsSound := by
  obtain ⟨htext, hdata⟩ := reset_memories_wf
  exact {
    text_wf := htext
    data_wf := hdata
    stack := fun _ => .inl (by decide)
    no_fault := fun _ => rfl
    fault := fun hrun => by cases hrun }

/-! ## The ports -/

/-- Settles O53: each array port compares its index with the array's size and nothing else. -/
theorem dataAndTextPortsShowTheArrays : Obligations.DataAndTextPortsShowTheArrays := fun _ _ =>
  ⟨fun h => if_pos h, fun h => if_neg (BitVec.not_lt.2 h), fun h => if_pos h, fun h => if_neg (BitVec.not_lt.2 h)⟩

end Sys2Proof.Proofs.LoadAndPorts

/-! The invariant of 10_state.md section 11: every step keeps it, and from a state that meets it the model never stops. -/

namespace Sys2Proof.Proofs.Soundness

open Sys2Proof.Machine Sys2Proof.Safety Sys2Proof.Proofs.RunStates Sys2Proof.Proofs.LoadAndPorts

/-! ## The step lemma -/

/-- A raise leaves a sound state whatever sp it leaves: of a Faulted state the invariant asks a kind and the arrays. -/
theorem sound_raised {s : State} (htext : s.text.wf s.textSize.toNat = true)
    (hdata : s.data.wf s.dataSize.toNat = true) (k : FaultKind) (addr : Word) : Sound (s.raised k addr) where
  text_wf := htext
  data_wf := hdata
  stack := fun h => by simp at h
  no_fault := fun h => by simp at h
  fault := fun _ => rfl

/-- What an instruction that does not fault has to keep: the text array, the data array's canonical form, the fault
record's kind, and an sp where the invariant lets it be. -/
theorem sound_of_running {s t : State} (hs : Sound s) (hrun : s.run = .running) (htext : t.text = s.text)
    (hsizes : t.textSize = s.textSize ∧ t.dataSize = s.dataSize)
    (hdata : t.data.wf s.dataSize.toNat = true) (hkind : t.faultKind = s.faultKind) (ht : t.run ≠ .faulted)
    (hsp : t.sp = t.dataSize - 1#32 ∨ t.inWindow t.sp = true) : Sound t where
  text_wf := by rw [htext, hsizes.1]; exact hs.text_wf
  data_wf := by rw [hsizes.2]; exact hdata
  stack := fun _ => hsp
  no_fault := fun _ => hkind.trans (hs.no_fault (.inl hrun))
  fault := fun h => absurd h ht

/-- The invariant through one instruction. -/
theorem exec_keeps_sound {i : Instr} {s t : State} (hs : Sound s) (hrun : s.run = .running)
    (h : exec i s = .next t) : Sound t := by
  have hsp := hs.stack (.inl hrun)
  have hne : s.run ≠ .faulted := by simp [hrun]
  have hwrite : ∀ {a : Word} (v : Word), a < s.dataSize → (s.data.write a.toNat v).wf s.dataSize.toNat = true :=
    fun v ha => Memory.wf_write v hs.data_wf (BitVec.lt_def.1 ha)
  cases exec_leaves h with
  | unchanged => exact hs
  | register => exact sound_of_running hs hrun rfl ⟨rfl, rfl⟩ hs.data_wf rfl hne hsp
  | jumped => exact sound_of_running hs hrun rfl ⟨rfl, rfl⟩ hs.data_wf rfl hne hsp
  | halted => exact sound_of_running hs hrun rfl ⟨rfl, rfl⟩ hs.data_wf rfl (by simp) hsp
  | stored a v _ _ ha => exact sound_of_running hs hrun rfl ⟨rfl, rfl⟩ (hwrite v ha) rfl hne hsp
  | pushed v _ _ hw ha => exact sound_of_running hs hrun rfl ⟨rfl, rfl⟩ (hwrite v ha) rfl hne (.inr hw)
  | called a _ _ hw ha => exact sound_of_running hs hrun rfl ⟨rfl, rfl⟩ (hwrite s.pc ha) rfl hne (.inr hw)
  | popped a v _ _ hw ha => exact sound_of_running hs hrun rfl ⟨rfl, rfl⟩ (hwrite v ha) rfl hne (.inr hw)
  | returned v _ _ hw => exact sound_of_running hs hrun rfl ⟨rfl, rfl⟩ hs.data_wf rfl hne (.inr hw)
  | raised k => exact sound_raised hs.text_wf hs.data_wf k _
  | raisedStack sp' => exact sound_raised (s := s.setSp sp') hs.text_wf hs.data_wf .segmentStack _

/-- The fetch's increment of pc. -/
theorem sound_setPc {s : State} (hs : Sound s) (v : Word) : Sound (s.setPc v) :=
  ⟨hs.text_wf, hs.data_wf, hs.stack, hs.no_fault, hs.fault⟩

/-- Settles O48: the terminal states stay, the fetch fault is a raise, and an instruction keeps the invariant. -/
theorem stepKeepsSound : Obligations.StepKeepsSound := by
  intro s t hs h
  obtain ⟨-, rfl⟩ | ⟨-, -, rfl⟩ | ⟨hrun, -, hexec⟩ := step_cases h
  · exact hs
  · exact sound_raised hs.text_wf hs.data_wf _ _
  · exact exec_keeps_sound (sound_setPc hs (s.pc + 1#32)) hrun hexec

/-! ## The model's own stop is never reached -/

/-- Where the invariant lets sp be, a push whose new sp is in the window has its old sp inside the array. -/
theorem sp_lt_dataSize_of_sound {s : State} (hs : Sound s) (hrun : s.run = .running)
    (hw : s.inWindow (s.sp - 1#32) = true) : s.sp < s.dataSize := by
  obtain ⟨-, hlt⟩ := (s.inWindow_iff _).1 hw
  obtain hsp | hsp := hs.stack (.inl hrun)
  · bv_omega
  · exact ((s.inWindow_iff _).1 hsp).2

/-- A result that is a next state. -/
def Answers (r : Result) : Prop := ∃ t, r = .next t

theorem answers_ite {c : Prop} [Decidable c] {r r' : Result} (h : c → Answers r) (h' : Answers r') :
    Answers (if c then r else r') := by
  split_ifs with hc
  · exact h hc
  · exact h'

theorem answers_next (t : State) : Answers (.next t) := ⟨t, rfl⟩

theorem loadValue_answers (rd : RegId) (o : AddrOperand) (s : State) : Answers (loadValue rd (.address o) s) := by
  rw [loadValue_address]
  exact answers_ite (fun _ => answers_next _) (answers_next _)

theorem arith_answers (op : Word → Word → Word) (rd : RegId) (o : AddrOperand) (s : State) :
    Answers (arith op rd (.address o) s) := by
  rw [arith_address]
  exact answers_ite (fun _ => answers_next _) (answers_next _)

theorem storeWord_answers (rs : RegId) (o : AddrOperand) (s : State) : Answers (storeWord rs (.address o) s) := by
  rw [storeWord_address]
  exact answers_ite (fun _ => answers_next _) (answers_next _)

theorem branchTo_answers (c : BitVec 4) (o : AddrOperand) (s : State) : Answers (branchTo c (.address o) s) := by
  rw [branchTo_address]
  split
  · exact answers_next _
  · exact answers_ite (fun _ => answers_ite (fun _ => answers_next _) (answers_next _)) (answers_next _)

theorem retPop_answers (s : State) : Answers (retPop s) := by
  rw [retPop_eq]
  exact answers_ite (fun _ => answers_next _) (answers_next _)

theorem popTo_answers (o : AddrOperand) (s : State) : Answers (popTo (.address o) s) := by
  rw [popTo_address]
  exact answers_ite (fun _ => answers_ite (fun _ => answers_next _) (answers_next _)) (answers_next _)

section Push

variable {s : State} (hsp : s.inWindow (s.sp - 1#32) = true → s.sp < s.dataSize)

include hsp

theorem push_answers (v : Word) : Answers (finish (push v s)) := by
  rw [finish_push]
  refine answers_ite (fun hw => ?_) (answers_next _)
  rw [if_pos (hsp hw)]
  exact answers_next _

theorem callTo_answers (c : BitVec 4) (o : AddrOperand) : Answers (callTo c (.address o) s) := by
  rw [callTo_address]
  split
  · exact answers_next _
  · refine answers_ite (fun _ => answers_ite (fun hw => ?_) (answers_next _)) (answers_next _)
    rw [if_pos (hsp hw)]
    exact answers_next _

theorem pushValue_answers (o : AddrOperand) : Answers (pushValue (.address o) s) := by
  rw [pushValue_address]
  exact answers_ite (fun _ => push_answers hsp _) (answers_next _)

/-- Only a push can meet the model's stop, so an instruction answers a next state where a push does. -/
theorem exec_answers (i : Instr) : Answers (exec i s) := by
  cases i with
  | illop | nop | halt | loadImm | addImm | subImm | unknown12 | unknown16 | unknown32
  | storeImm | branchImm | callImm | popImm => exact answers_next _
  | loadAbs rd | loadIdx rd => exact loadValue_answers rd _ s
  | addAbs rd | addIdx rd => exact arith_answers aluAdd rd _ s
  | subAbs rd | subIdx rd => exact arith_answers aluSub rd _ s
  | storeAbs rs | storeIdx rs => exact storeWord_answers rs _ s
  | branchAbs c | branchIdx c => exact branchTo_answers c _ s
  | callAbs c | callIdx c => exact callTo_answers hsp c _
  | ret => exact retPop_answers s
  | pushImm v => exact push_answers hsp v
  | pushAbs | pushIdx => exact pushValue_answers hsp _
  | popAbs | popIdx => exact popTo_answers _ s

end Push

/-- Progress: a sound state that has been loaded steps. -/
theorem step_answers {s : State} (hs : Sound s) (hrun : s.run ≠ .unloaded) : Answers (step s) := by
  cases h : s.run with
  | unloaded => exact absurd h hrun
  | halted => exact ⟨s, step_of_terminal (.inl h)⟩
  | faulted => exact ⟨s, step_of_terminal (.inr h)⟩
  | running =>
    rw [step_running h, cycle_eq]
    have hpush := sp_lt_dataSize_of_sound (sound_setPc hs (s.pc + 1#32)) h
    exact answers_ite (fun _ => exec_answers hpush _) (answers_next _)

theorem exec_ne_unloaded {i : Instr} {s t : State} (h : exec i s = .next t) (hrun : s.run ≠ .unloaded) :
    t.run ≠ .unloaded := by
  cases exec_leaves h with
  | halted | raised | raisedStack => simp
  | unchanged | register | stored | jumped | pushed | called | popped | returned => exact hrun

/-- No step leads back before the first load. -/
theorem step_ne_unloaded {s t : State} (h : step s = .next t) : t.run ≠ .unloaded := by
  obtain ⟨hterm, rfl⟩ | ⟨-, -, rfl⟩ | ⟨hrun, -, hexec⟩ := step_cases h
  · exact ne_unloaded_of_terminal hterm
  · simp
  · exact exec_ne_unloaded hexec (by simp [hrun])

/-- A sound state that has been loaded delivers the result of its run state (40_cycle_and_operands.md R124). -/
theorem result?_of_sound {t : State} (ht : Sound t) (hrun : t.run ≠ .unloaded) :
    (t.run = .running ∧ t.result? = some .continue) ∨ (t.run = .halted ∧ t.result? = some .halted) ∨
      (t.run = .faulted ∧ ∃ k addr, t.result? = some (.fault k addr)) := by
  cases h : t.run with
  | unloaded => exact absurd h hrun
  | running => exact .inl ⟨rfl, by simp [State.result?, h]⟩
  | halted => exact .inr (.inl ⟨rfl, by simp [State.result?, h]⟩)
  | faulted =>
    obtain ⟨k, hk⟩ := Option.isSome_iff_exists.1 (ht.fault h)
    exact .inr (.inr ⟨rfl, k, t.faultAddr, by simp [State.result?, h, hk]⟩)

/-- Settles O49: progress, and the state reached is sound again. -/
theorem soundStateAlwaysSteps : Obligations.SoundStateAlwaysSteps := by
  intro s hs hrun
  obtain ⟨t, ht⟩ := step_answers hs hrun
  exact ⟨t, ht, result?_of_sound (stepKeepsSound s t hs ht) (step_ne_unloaded ht)⟩

/-- Progress along a run of any length. -/
theorem runFor_answers_sound : ∀ (n : Nat) {s : State}, Sound s → s.run ≠ .unloaded →
    ∃ t, runFor n s = .next t ∧ Sound t ∧ t.run ≠ .unloaded
  | 0, s, hs, hrun => ⟨s, runFor_zero hrun, hs, hrun⟩
  | n + 1, s, hs, hrun => by
    obtain ⟨u, hu⟩ := step_answers hs hrun
    rw [runFor_succ_of_next hu]
    exact runFor_answers_sound n (stepKeepsSound s u hs hu) (step_ne_unloaded hu)

/-- Settles O50: load leaves a sound Running state, and a run from one is always answered. -/
theorem loadedRunsNeverGetStuck : Obligations.LoadedRunsNeverGetStuck := by
  intro cap img addr s0 s n hload
  have hs := loadedStateIsSound cap img addr s0 s hload
  obtain ⟨rfl, -⟩ := LoadedText.loadImage_next hload
  obtain ⟨t, hrun, ht, hloaded⟩ := runFor_answers_sound n hs (by simp [Image.loaded])
  refine ⟨t, hrun, ht, ?_⟩
  cases h : t.run with
  | unloaded => exact absurd h hloaded
  | running => exact .inl rfl
  | halted => exact .inr (.inl rfl)
  | faulted => exact .inr (.inr ⟨rfl, Option.isSome_iff_exists.1 (ht.fault h)⟩)

end Sys2Proof.Proofs.Soundness

/-! LOAD, STORE, ADD and SUB (41_load_store.md, 42_add_sub.md): what a handler that completes writes, and that it writes
nothing else; then the arithmetic laws of the written value. -/

namespace Sys2Proof.Proofs.RegisterWrites

open Sys2Proof.Machine Sys2Proof.Safety Sys2Proof.Proofs.SignClassifier

/-! ## The two writes, with their frames -/

/-- The classifier's code tells the sign (10_state.md R29). -/
theorem signCode_classify (v : Word) : SignCode v (classify v) :=
  ⟨(classify_eq_zero_iff v).2, fun h => (classify_eq_positive_iff v).2 ((bit31_clear_iff_toInt_pos v).2 h),
    fun h => (classify_eq_negative_iff v).2 ((bit31_iff_toInt_neg v).2 h)⟩

theorem writesRegister_setReg (rd : RegId) (v : Word) (s : State) :
    WritesRegister rd v s ((s.setReg rd v).setCc (classify v)) :=
  ⟨s.reg_setReg_same rd v, signCode_classify v, fun _ hr => s.reg_setReg_of_ne v hr, rfl, rfl, fun _ => rfl,
    ⟨fun _ => rfl, rfl, rfl, rfl⟩, rfl, rfl, rfl⟩

theorem writesData_setData (a v : Word) (s : State) : WritesData a v s (s.setData a v) :=
  ⟨s.dataWord_setData_same a v, fun _ hb => s.dataWord_setData_of_ne v hb, fun _ => rfl, rfl, rfl, rfl,
    ⟨fun _ => rfl, rfl, rfl, rfl⟩, rfl, rfl, rfl⟩

/-! ## The handlers where they complete -/

section Handlers

variable {s : State} {o : AddrOperand} (h : resolveAddress o s < s.dataSize)

include h

theorem loadValue_completes (rd : RegId) :
    ∃ t, loadValue rd (.address o) s = .next t ∧ WritesRegister rd (s.dataWord (resolveAddress o s)) s t :=
  ⟨_, (loadValue_address rd o s).trans (if_pos h), writesRegister_setReg rd _ s⟩

theorem arith_completes (op : Word → Word → Word) (rd : RegId) :
    ∃ t, arith op rd (.address o) s = .next t ∧
      WritesRegister rd (op (s.reg rd) (s.dataWord (resolveAddress o s))) s t :=
  ⟨_, (arith_address op rd o s).trans (if_pos h), writesRegister_setReg rd _ s⟩

theorem storeWord_completes (rs : RegId) :
    ∃ t, storeWord rs (.address o) s = .next t ∧ WritesData (resolveAddress o s) (s.reg rs) s t :=
  ⟨_, (storeWord_address rs o s).trans (if_pos h), writesData_setData _ _ s⟩

end Handlers

theorem arith_immediate_completes (op : Word → Word → Word) (rd : RegId) (v : Word) (s : State) :
    ∃ t, arith op rd (.immediate v) s = .next t ∧ WritesRegister rd (op (s.reg rd) v) s t :=
  ⟨_, arith_immediate op rd v s, writesRegister_setReg rd _ s⟩

/-- Settles O16: the three operand forms of one handler. -/
theorem loadWritesOperandAndSign : Obligations.LoadWritesOperandAndSign := fun rd s =>
  ⟨fun v => ⟨_, loadValue_immediate rd v s, writesRegister_setReg rd v s⟩,
    fun a h => loadValue_completes (o := .absolute a) h rd,
    fun b off h => loadValue_completes (o := .indexed b off) h rd⟩

/-- Settles O17: both addresses of one handler. -/
theorem storeWritesOneDataWord : Obligations.StoreWritesOneDataWord := fun rs _ =>
  ⟨fun a h => storeWord_completes (o := .absolute a) h rs,
    fun b off h => storeWord_completes (o := .indexed b off) h rs⟩

/-- Settles O18: the handler ADD shares with SUB, at the sum. -/
theorem addWritesSumAndSign : Obligations.AddWritesSumAndSign := fun rd s =>
  ⟨fun v => arith_immediate_completes aluAdd rd v s, fun a h => arith_completes (o := .absolute a) h aluAdd rd,
    fun b off h => arith_completes (o := .indexed b off) h aluAdd rd⟩

/-- Settles O19: the same handler at the difference. -/
theorem subWritesDifferenceAndSign : Obligations.SubWritesDifferenceAndSign := fun rd s =>
  ⟨fun v => arith_immediate_completes aluSub rd v s, fun a h => arith_completes (o := .absolute a) h aluSub rd,
    fun b off h => arith_completes (o := .indexed b off) h aluSub rd⟩

/-! ## The arithmetic laws (42_add_sub.md) -/

/-- What an ADD or SUB with operand `v` leaves in its register and in cc. -/
def LeavesValue (rd : RegId) (r : Word) (t : State) : Prop := t.reg rd = r ∧ t.cc = classify r

theorem leavesValue_setReg (rd : RegId) (r : Word) (s : State) :
    LeavesValue rd r ((s.setReg rd r).setCc (classify r)) := ⟨s.reg_setReg_same rd r, rfl⟩

theorem arith_immediate_leavesValue {op : Word → Word → Word} {rd : RegId} {v : Word} {s t : State}
    (h : arith op rd (.immediate v) s = .next t) : LeavesValue rd (op (s.reg rd) v) t := by
  rw [arith_immediate] at h
  cases h
  exact leavesValue_setReg rd _ s

theorem arith_address_leavesValue {op : Word → Word → Word} {rd : RegId} {o : AddrOperand} {s t : State}
    (ha : resolveAddress o s < s.dataSize) (h : arith op rd (.address o) s = .next t) :
    LeavesValue rd (op (s.reg rd) (s.dataWord (resolveAddress o s))) t := by
  rw [arith_address, if_pos ha] at h
  cases h
  exact leavesValue_setReg rd _ s

/-- A word whose exact value fits 32 signed bits reads as that value, although it was computed modulo 2^32. -/
theorem bmod_of_fits {n : Int} (hlo : -2147483648 ≤ n) (hhi : n < 2147483648) : n.bmod (2 ^ 32) = n :=
  Int.bmod_eq_of_le hlo hhi

theorem toInt_aluAdd {a b : Word} (hlo : -2147483648 ≤ a.toInt + b.toInt) (hhi : a.toInt + b.toInt < 2147483648) :
    (aluAdd a b).toInt = a.toInt + b.toInt := by
  rw [aluAdd, BitVec.toInt_add, bmod_of_fits hlo hhi]

theorem toInt_aluSub {a b : Word} (hlo : -2147483648 ≤ a.toInt - b.toInt) (hhi : a.toInt - b.toInt < 2147483648) :
    (aluSub a b).toInt = a.toInt - b.toInt := by
  rw [aluSub, BitVec.toInt_sub, bmod_of_fits hlo hhi]

/-- The difference is 0 iff the operands are equal, overflow or not. -/
theorem classify_aluSub_eq_zero_iff (a b : Word) : classify (aluSub a b) = .zero ↔ a = b := by
  rw [classify_eq_zero_iff, aluSub]
  exact sub_eq_zero

theorem classify_eq_positive_iff_toInt (v : Word) : classify v = .positive ↔ 0 < v.toInt :=
  (classify_eq_positive_iff v).trans (bit31_clear_iff_toInt_pos v)

theorem classify_eq_negative_iff_toInt (v : Word) : classify v = .negative ↔ v.toInt < 0 :=
  (classify_eq_negative_iff v).trans (bit31_iff_toInt_neg v)

/-- The three forms of ADD, and those of SUB, leave one value: `arith`'s at the operand's word. -/
theorem leavesValue_of_form {op : Word → Word → Word} {rd : RegId} {v : Word} {s t : State} {i imm : Instr}
    {abs : Word → Instr} {idx : RegId → Word → Instr} (himm : exec imm s = arith op rd (.immediate v) s)
    (habs : ∀ a, exec (abs a) s = arith op rd (.address (.absolute a)) s)
    (hidx : ∀ b o, exec (idx b o) s = arith op rd (.address (.indexed b o)) s)
    (hi : i = imm ∨ (∃ a, i = abs a ∧ a < s.dataSize ∧ s.dataWord a = v) ∨
      ∃ b o, i = idx b o ∧ s.reg b + o < s.dataSize ∧ s.dataWord (s.reg b + o) = v)
    (h : exec i s = .next t) : LeavesValue rd (op (s.reg rd) v) t := by
  obtain rfl | ⟨a, rfl, ha, rfl⟩ | ⟨b, o, rfl, ha, rfl⟩ := hi
  · exact arith_immediate_leavesValue (himm.symm.trans h)
  · exact arith_address_leavesValue (o := .absolute a) ha ((habs a).symm.trans h)
  · exact arith_address_leavesValue (o := .indexed b o) ha ((hidx b o).symm.trans h)

/-- Settles O20: in range the sum and the difference modulo 2^32 are the exact ones, and cc is the difference's sign. -/
theorem arithmeticInRangeIsExact : Obligations.ArithmeticInRangeIsExact := by
  refine ⟨fun rd v s hlo hhi i t hi h => ?_, fun rd v s i t hi h => ?_⟩
  · obtain ⟨hreg, -⟩ := leavesValue_of_form (op := aluAdd) rfl (fun _ => rfl) (fun _ _ => rfl) hi h
    rw [hreg, toInt_aluAdd hlo hhi]
  · obtain ⟨hreg, hcc⟩ := leavesValue_of_form (op := aluSub) rfl (fun _ => rfl) (fun _ _ => rfl) hi h
    rw [hreg, hcc]
    refine ⟨classify_aluSub_eq_zero_iff _ _, fun hlo hhi => ?_⟩
    have hexact := toInt_aluSub hlo hhi
    rw [classify_eq_positive_iff_toInt, classify_eq_negative_iff_toInt, hexact]
    exact ⟨rfl, by omega, by omega⟩

/-- Settles O21: the difference undoes the sum modulo 2^32, and each instruction writes that register and cc only. -/
theorem addThenSubRestoresRegister : Obligations.AddThenSubRestoresRegister := by
  intro rd v s
  obtain ⟨t, hadd, hsum, -, hregs, hpc, hsp, hdata, ⟨htext, hts, hds, hde⟩, hrun, hkind, haddr⟩ :=
    arith_immediate_completes aluAdd rd v s
  obtain ⟨u, hsub, hdiff, -, hregs', hpc', hsp', hdata', ⟨htext', hts', hds', hde'⟩, hrun', hkind', haddr'⟩ :=
    arith_immediate_completes aluSub rd v t
  have hback : u.reg rd = s.reg rd := by
    rw [hdiff, hsum, aluSub, aluAdd, BitVec.add_sub_cancel]
  have hall : SameRegs s u := fun r => by
    by_cases hr : r = rd
    · rw [hr, hback]
    · rw [hregs' r hr, hregs r hr]
  exact ⟨t, u, hadd, hsub, hall, fun a => (hdata' a).trans (hdata a),
    ⟨fun a => (htext' a).trans (htext a), hts'.trans hts, hds'.trans hds, hde'.trans hde⟩,
    ⟨hrun'.trans hrun, hkind'.trans hkind, haddr'.trans haddr⟩, hsp'.trans hsp, hpc'.trans hpc⟩

end Sys2Proof.Proofs.RegisterWrites

/-! The condition evaluator (40_cycle_and_operands.md R134) and BRANCH (43_branch_call_ret.md R180). -/

namespace Sys2Proof.Proofs.Branch

open Sys2Proof.Machine Sys2Proof.Safety Sys2Proof.Proofs.RunStates

/-! ## Conditions -/

/-- The seven condition fields, each evaluated by name (30_encoding.md R90). -/
theorem checkCondition_of_cond {c : BitVec 4} {k : Cond} (hc : condOfField c = some k) (s : State) :
    checkCondition c s = .ok (condHolds k s.cc) := by
  rw [checkCondition_eq, hc]

/-- The seven fields of a truth-table row, read against the conditions they name. -/
theorem checkCondition_row {s : State} {cc : CondCode} (h : s.cc = cc) :
    checkCondition 0 s = .ok (condHolds .nc cc) ∧ checkCondition 1 s = .ok (condHolds .eq cc) ∧
      checkCondition 2 s = .ok (condHolds .ne cc) ∧ checkCondition 3 s = .ok (condHolds .gt cc) ∧
      checkCondition 4 s = .ok (condHolds .ge cc) ∧ checkCondition 5 s = .ok (condHolds .lt cc) ∧
      checkCondition 6 s = .ok (condHolds .le cc) := by
  subst h
  exact ⟨checkCondition_of_cond rfl s, checkCondition_of_cond rfl s, checkCondition_of_cond rfl s,
    checkCondition_of_cond rfl s, checkCondition_of_cond rfl s, checkCondition_of_cond rfl s,
    checkCondition_of_cond rfl s⟩

/-- Settles O23: the four rows of the table, `condHolds` evaluated in each. -/
theorem conditionTruthTable : Obligations.ConditionTruthTable := fun _ =>
  ⟨fun h => checkCondition_row h, fun h => checkCondition_row h, fun h => checkCondition_row h,
    fun h => checkCondition_row h⟩

/-- The spec's truth of a field is the evaluator's, and 7..15 are never true. -/
theorem holds_iff (c : BitVec 4) (cc : CondCode) : Holds c cc ↔ (condOfField c).any (condHolds · cc) = true := by
  cases cc <;> revert c <;> decide

theorem exists_cond_of_holds {c : BitVec 4} {cc : CondCode} (h : Holds c cc) :
    ∃ k, condOfField c = some k ∧ condHolds k cc = true := by
  simpa [Option.any_eq_true] using (holds_iff c cc).1 h

theorem exists_cond_of_not_holds {c : BitVec 4} {cc : CondCode} (hc : c.toNat < 7) (h : ¬ Holds c cc) :
    ∃ k, condOfField c = some k ∧ condHolds k cc = false := by
  cases hk : condOfField c with
  | none => exact absurd ((condOfField_eq_none_iff c).1 hk) (by omega)
  | some k => exact ⟨k, rfl, by simpa [holds_iff, hk] using h⟩

/-! ## BRANCH -/

/-- A BRANCH whose condition holds comes to its target check (R130). -/
theorem branchTo_of_holds {c : BitVec 4} {s : State} (h : Holds c s.cc) (o : AddrOperand) :
    branchTo c (.address o) s =
      if resolveAddress o s < s.textSize then .next (s.setPc (resolveAddress o s))
      else .next (s.raised .segmentText s.ia) := by
  obtain ⟨k, hk, htrue⟩ := exists_cond_of_holds h
  simp only [branchTo_address, hk, htrue, if_true]

theorem branchTo_of_not_holds {c : BitVec 4} {s : State} (hc : c.toNat < 7) (h : ¬ Holds c s.cc) (o : AddrOperand) :
    branchTo c (.address o) s = .next s := by
  obtain ⟨k, hk, hfalse⟩ := exists_cond_of_not_holds hc h
  simp [branchTo_address, hk, hfalse]

/-- Settles O24: both forms of one handler, taken and not taken. -/
theorem branchSetsPcOrFallsThrough : Obligations.BranchSetsPcOrFallsThrough := fun _ _ =>
  ⟨fun a h hlt => (branchTo_of_holds h (.absolute a)).trans (if_pos hlt),
    fun b o h hlt => (branchTo_of_holds h (.indexed b o)).trans (if_pos hlt),
    fun a hc h => branchTo_of_not_holds hc h (.absolute a), fun b o hc h => branchTo_of_not_holds hc h (.indexed b o)⟩

/-- Settles O25: the target check raises before pc is set, so the record is at ia and pc is ia + 1. -/
theorem branchOutsideTextRaisesSegmentText : Obligations.BranchOutsideTextRaisesSegmentText := by
  intro c i target s h hle hi
  have hout : ¬ target < s.textSize := BitVec.not_lt.2 hle
  have hexec : exec i s = .next (s.raised .segmentText s.ia) := by
    obtain rfl | ⟨b, o, rfl, rfl⟩ := hi
    · exact (branchTo_of_holds h (.absolute target)).trans (if_neg hout)
    · exact (branchTo_of_holds h (.indexed b o)).trans (if_neg hout)
  exact ⟨_, s.ia, hexec, ⟨rfl, rfl, rfl⟩, .inl rfl, .inl rfl, fun _ => rfl, rfl, rfl, fun _ => rfl,
    sameLimits_raised s _ _⟩

/-- Settles O52: the branch undoes the fetch's increment of pc, so the step answers the state it began in. -/
theorem selfBranchRunsForever : Obligations.SelfBranchRunsForever := by
  intro s n hrun hpc hdec
  have hstep : step s = .next s := by
    rw [NopStep.step_of_fetched hrun hpc, hdec]
    exact (branchTo_of_holds (.inl rfl) (.absolute s.pc)).trans (if_pos hpc)
  exact runFor_of_fixed (by simp [hrun]) hstep n

end Sys2Proof.Proofs.Branch

/-! The stack (40_cycle_and_operands.md section 5): the primitives where they complete, then PUSH, POP, CALL and RET, and
the laws of a push met by its pop. -/

namespace Sys2Proof.Proofs.Stack

open Sys2Proof.Machine Sys2Proof.Safety Sys2Proof.Proofs.Branch

/-! ## Where the primitives complete -/

theorem inWindow_of_canPush {s : State} (h : CanPush s) : s.inWindow (s.sp - 1#32) = true ∧ s.sp < s.dataSize := by
  obtain ⟨hlo, hhi, hold⟩ := h
  exact ⟨(s.inWindow_iff _).2 ⟨hlo, hhi⟩, hold⟩

theorem inWindow_of_canPop {s : State} (h : CanPop s) : s.inWindow (s.sp + 1#32) = true := (s.inWindow_iff _).2 h

/-- The state a completed push leaves (R135; D9). -/
def pushedState (v : Word) (s : State) : State := (s.setSp (s.sp - 1#32)).setData s.sp v

theorem push_of_canPush {s : State} (h : CanPush s) (v : Word) : push v s = .ok (pushedState v s) := by
  obtain ⟨hw, hlt⟩ := inWindow_of_canPush h
  rw [push_eq, if_pos hw, if_pos hlt, pushedState]

/-- A push that answers a state is one that could complete: it faults or stops everywhere else. -/
theorem canPush_of_push {v : Word} {s t : State} (h : push v s = .ok t) : CanPush s ∧ t = pushedState v s := by
  rw [push_eq] at h
  split_ifs at h with hw hlt
  cases h
  obtain ⟨hlo, hhi⟩ := (s.inWindow_iff _).1 hw
  exact ⟨⟨hlo, hhi, hlt⟩, rfl⟩

/-- A push moves sp down without wrapping: a new sp of 2^32 - 1 is below no data_size. -/
theorem sp_sub_one_lt {s : State} (h : CanPush s) : s.sp - 1#32 < s.sp := by
  obtain ⟨-, hhi, -⟩ := h
  bv_omega

/-- So the cell a push fills is in the stack window, where the pop after it reads. -/
theorem canPop_of_pushed {s u : State} (h : CanPush s) (hsp : u.sp = s.sp - 1#32) (hsize : u.dataSize = s.dataSize)
    (hend : u.dataEnd = s.dataEnd) : CanPop u ∧ u.sp + 1#32 = s.sp := by
  have hlt := sp_sub_one_lt h
  obtain ⟨hlo, hhi, hold⟩ := h
  have hback : u.sp + 1#32 = s.sp := by rw [hsp, BitVec.sub_add_cancel]
  rw [CanPop, hback, hsize, hend]
  exact ⟨⟨by bv_omega, hold⟩, rfl⟩

theorem pushesWord_pushedState (v : Word) (s : State) : PushesWord v s (pushedState v s) :=
  ⟨rfl, (s.setSp _).dataWord_setData_same s.sp v, fun _ ha => (s.setSp _).dataWord_setData_of_ne v ha, fun _ => rfl, rfl,
    ⟨fun _ => rfl, rfl, rfl, rfl⟩, rfl, rfl, rfl⟩

theorem pop_of_canPop {s : State} (h : CanPop s) :
    pop s = .ok (s.dataWord (s.sp + 1#32), s.setSp (s.sp + 1#32)) := by
  rw [pop_eq, if_pos (inWindow_of_canPop h)]

/-! ## PUSH and POP -/

theorem finish_push_of_canPush {s : State} (h : CanPush s) (v : Word) :
    finish (push v s) = .next (pushedState v s) := by
  rw [push_of_canPush h, finish_ok]

/-- PUSH of a memory operand: the operand is read before sp moves (44_push_pop.md R190). -/
theorem pushValue_of_canPush {s : State} {o : AddrOperand} (h : CanPush s) (ha : resolveAddress o s < s.dataSize) :
    pushValue (.address o) s = .next (pushedState (s.dataWord (resolveAddress o s)) s) := by
  rw [pushValue_address, if_pos ha, finish_push_of_canPush h]

/-- Settles O30: the literal and the memory operands all end in one push. -/
theorem pushStoresOperandBelow : Obligations.PushStoresOperandBelow := fun s h =>
  ⟨fun v => ⟨_, finish_push_of_canPush h v, rfl, pushesWord_pushedState v s⟩,
    fun a ha => ⟨_, pushValue_of_canPush (o := .absolute a) h ha, rfl, pushesWord_pushedState _ s⟩,
    fun b o ha => ⟨_, pushValue_of_canPush (o := .indexed b o) h ha, rfl, pushesWord_pushedState _ s⟩⟩

/-- The state a completed POP leaves: the top word at the destination, sp one higher (44_push_pop.md R191; D9). -/
def poppedState (a : Word) (s : State) : State := (s.setSp (s.sp + 1#32)).setData a (s.dataWord (s.sp + 1#32))

theorem popTo_of_canPop {s : State} {o : AddrOperand} (h : CanPop s) (ha : resolveAddress o s < s.dataSize) :
    popTo (.address o) s = .next (poppedState (resolveAddress o s) s) := by
  rw [popTo_address, if_pos ha, if_pos (inWindow_of_canPop h), poppedState]

theorem poppedState_dataWord (a : Word) (s : State) :
    (poppedState a s).dataWord a = s.dataWord (s.sp + 1#32) ∧ SameDataBut a s (poppedState a s) :=
  ⟨(s.setSp _).dataWord_setData_same a _, fun _ hb => (s.setSp _).dataWord_setData_of_ne _ hb⟩

theorem poppedState_frame (a : Word) (s : State) :
    SameRegs s (poppedState a s) ∧ (poppedState a s).cc = s.cc ∧ (poppedState a s).pc = s.pc ∧
      SameLimits s (poppedState a s) ∧ SameRun s (poppedState a s) :=
  ⟨fun _ => rfl, rfl, rfl, ⟨fun _ => rfl, rfl, rfl, rfl⟩, rfl, rfl, rfl⟩

/-- Settles O31: both destinations of one handler. -/
theorem popMovesTopToData : Obligations.PopMovesTopToData := by
  intro s h
  refine ⟨fun a ha => ?_, fun b o ha => ?_⟩
  · obtain ⟨hword, hother⟩ := poppedState_dataWord a s
    exact ⟨_, popTo_of_canPop (o := .absolute a) h ha, rfl, hword, hother, poppedState_frame a s⟩
  · obtain ⟨hword, hother⟩ := poppedState_dataWord (s.reg b + o) s
    exact ⟨_, popTo_of_canPop (o := .indexed b o) h ha, rfl, hword, hother, poppedState_frame _ s⟩

/-- Settles O33: the pop reads the cell the push filled, and only b and that cell are written. -/
theorem pushPopMovesMemoryToMemory : Obligations.PushPopMovesMemoryToMemory := by
  intro a b s h ha hb
  obtain ⟨hpop, hback⟩ := canPop_of_pushed (u := pushedState (s.dataWord a) s) h rfl rfl rfl
  obtain ⟨-, hfilled, hkept, -⟩ := pushesWord_pushedState (s.dataWord a) s
  obtain ⟨hword, hother⟩ := poppedState_dataWord b (pushedState (s.dataWord a) s)
  rw [hback] at hword
  exact ⟨_, _, pushValue_of_canPush (o := .absolute a) h ha, popTo_of_canPop (o := .absolute b) hpop hb,
    hword.trans hfilled, fun x hxb hxs => (hother x hxb).trans (hkept x hxs), hback, rfl, rfl, fun _ => rfl,
    ⟨fun _ => rfl, rfl, rfl, rfl⟩, rfl, rfl, rfl⟩

/-! ## CALL and RET -/

theorem callTo_of_holds {c : BitVec 4} {s : State} (h : Holds c s.cc) (o : AddrOperand) :
    callTo c (.address o) s = finish ((push s.pc s).map (·.setPc (resolveAddress o s))) := by
  obtain ⟨k, hk, htrue⟩ := exists_cond_of_holds h
  simp only [callTo_address, hk, htrue, if_true, push_eq]
  split_ifs <;> rfl

theorem callTo_of_canPush {c : BitVec 4} {s : State} (h : Holds c s.cc) (hpush : CanPush s) (o : AddrOperand) :
    callTo c (.address o) s = .next ((pushedState s.pc s).setPc (resolveAddress o s)) := by
  rw [callTo_of_holds h, push_of_canPush hpush]
  rfl

theorem callTo_of_not_holds {c : BitVec 4} {s : State} (hc : c.toNat < 7) (h : ¬ Holds c s.cc) (o : AddrOperand) :
    callTo c (.address o) s = .next s := by
  obtain ⟨k, hk, hfalse⟩ := exists_cond_of_not_holds hc h
  simp [callTo_address, hk, hfalse]

/-- A CALL that is taken and leaves the machine Running has pushed: its only other outcomes fault or stop. -/
theorem callTo_completes {c : BitVec 4} {o : AddrOperand} {s t : State} (h : Holds c s.cc)
    (hdone : Completes (callTo c (.address o) s) t) :
    CanPush s ∧ t = (pushedState s.pc s).setPc (resolveAddress o s) := by
  obtain ⟨hnext, hrun⟩ := hdone
  rw [callTo_of_holds h, push_eq] at hnext
  split_ifs at hnext with hw hlt
  · cases hnext
    obtain ⟨hlo, hhi⟩ := (s.inWindow_iff _).1 hw
    exact ⟨⟨hlo, hhi, hlt⟩, rfl⟩
  · cases hnext
  · cases hnext
    cases hrun

/-- The jump of a CALL is no part of what its push leaves. -/
theorem pushesWord_setPc {v : Word} {s t : State} (h : PushesWord v s t) (a : Word) : PushesWord v s (t.setPc a) := h

/-- Settles O27: a taken CALL is a push of pc and a jump; one not taken answers its state. -/
theorem callPushesReturnAddressAndJumps : Obligations.CallPushesReturnAddressAndJumps := fun _ s =>
  ⟨fun a h hp => ⟨_, callTo_of_canPush h hp (.absolute a), rfl, pushesWord_setPc (pushesWord_pushedState s.pc s) a⟩,
    fun b o h hp =>
      ⟨_, callTo_of_canPush h hp (.indexed b o), rfl, pushesWord_setPc (pushesWord_pushedState s.pc s) _⟩,
    fun a hc h => callTo_of_not_holds hc h (.absolute a), fun b o hc h => callTo_of_not_holds hc h (.indexed b o)⟩

theorem retPop_of_canPop {s : State} (h : CanPop s) :
    retPop s = .next ((s.setSp (s.sp + 1#32)).setPc (s.dataWord (s.sp + 1#32))) := by
  rw [retPop_eq, if_pos (inWindow_of_canPop h)]

/-- Settles O28: where the pop completes, sp and pc are all that RET writes. -/
theorem retPopsPc : Obligations.RetPopsPc := fun _ h =>
  ⟨_, retPop_of_canPop h, rfl, rfl, fun _ => rfl, rfl, fun _ => rfl, ⟨fun _ => rfl, rfl, rfl, rfl⟩, rfl, rfl, rfl⟩

/-- Settles O29: the RET pops the cell the CALL filled, which holds the pc behind the CALL. -/
theorem callThenRetReturns : Obligations.CallThenRetReturns := by
  intro c i s t u h hi hdone hsp hword hsize hend
  obtain ⟨hpush, a, rfl⟩ : CanPush s ∧ ∃ a, t = (pushedState s.pc s).setPc a := by
    obtain ⟨a, rfl⟩ | ⟨b, o, rfl⟩ := hi
    · obtain ⟨hpush, ht⟩ := callTo_completes (o := .absolute a) h hdone
      exact ⟨hpush, _, ht⟩
    · obtain ⟨hpush, ht⟩ := callTo_completes (o := .indexed b o) h hdone
      exact ⟨hpush, _, ht⟩
  obtain ⟨-, hfilled, -⟩ := pushesWord_pushedState s.pc s
  obtain ⟨hpop, hback⟩ := canPop_of_pushed hpush hsp hsize hend
  have hret := retPop_of_canPop hpop
  rw [hback, hword] at hret
  exact ⟨_, hret, hfilled, rfl, fun _ => rfl, rfl, fun _ => rfl, rfl, rfl, rfl⟩

/-! ## Last in, first out -/

/-- What a run of pushes keeps: everything but sp and the cells up to the sp it began with. -/
def KeptByPushes (s t : State) : Prop :=
  t.pc = s.pc ∧ t.cc = s.cc ∧ SameRegs s t ∧ SameLimits s t ∧ SameRun s t ∧ ∀ a, s.sp < a → t.dataWord a = s.dataWord a

theorem pushAll_cons {v : Word} {vs : List Word} {s t : State} (h : pushAll (v :: vs) s = .ok t) :
    CanPush s ∧ pushAll vs (pushedState v s) = .ok t := by
  rw [pushAll] at h
  cases hp : push v s with
  | error r =>
    rw [hp] at h
    cases h
  | ok u =>
    obtain ⟨hcan, rfl⟩ := canPush_of_push hp
    rw [hp] at h
    exact ⟨hcan, h⟩

theorem pushAll_keeps : ∀ {vs : List Word} {s t : State}, pushAll vs s = .ok t → KeptByPushes s t
  | [], s, t, h => by
    cases h
    exact ⟨rfl, rfl, fun _ => rfl, ⟨fun _ => rfl, rfl, rfl, rfl⟩, ⟨rfl, rfl, rfl⟩, fun _ _ => rfl⟩
  | v :: vs, s, t, h => by
    obtain ⟨hcan, htail⟩ := pushAll_cons h
    obtain ⟨hpc, hcc, hregs, hlimits, hrun, hdata⟩ := pushAll_keeps htail
    refine ⟨hpc, hcc, hregs, hlimits, hrun, fun a ha => ?_⟩
    have hbelow : s.sp - 1#32 < a := BitVec.lt_trans (sp_sub_one_lt hcan) ha
    have hne : a ≠ s.sp := fun e => BitVec.lt_irrefl _ (e ▸ ha)
    exact (hdata a hbelow).trans ((s.setSp _).dataWord_setData_of_ne v hne)

/-- A run of pops that is answered, by its first pop and the rest. -/
theorem popAll_succ_iff {n : Nat} {s u : State} {ws : List Word} :
    popAll (n + 1) s = .ok (ws, u) ↔
      ∃ v s₁ vs, pop s = .ok (v, s₁) ∧ popAll n s₁ = .ok (vs, u) ∧ ws = v :: vs := by
  rw [popAll]
  cases hfirst : pop s with
  | error r => simp
  | ok first =>
    obtain ⟨v, s₁⟩ := first
    cases hrest : popAll n s₁ with
    | error r => simp [hrest]
    | ok rest =>
      obtain ⟨vs, u'⟩ := rest
      simp [hrest, eq_comm, and_comm]

/-- One more pop yields one more word, the last. -/
theorem popAll_succ_last : ∀ {n : Nat} {s u u' : State} {ws : List Word} {w : Word},
    popAll n s = .ok (ws, u) → pop u = .ok (w, u') → popAll (n + 1) s = .ok (ws ++ [w], u')
  | 0, s, u, u', ws, w, h, hp => by
    cases h
    exact popAll_succ_iff.2 ⟨w, u', [], hp, rfl, rfl⟩
  | n + 1, s, u, u', ws, w, h, hp => by
    obtain ⟨v, s₁, vs, hfirst, hrest, rfl⟩ := popAll_succ_iff.1 h
    exact popAll_succ_iff.2 ⟨v, s₁, vs ++ [w], hfirst, popAll_succ_last hrest hp, rfl⟩

/-- The pops walk back over the cells the pushes filled, the last filled first, and change nothing but sp. -/
theorem popAll_of_pushAll : ∀ {vs : List Word} {s t : State}, pushAll vs s = .ok t →
    popAll vs.length t = .ok (vs.reverse, t.setSp s.sp)
  | [], s, t, h => by
    cases h
    rfl
  | v :: vs, s, t, h => by
    obtain ⟨hcan, htail⟩ := pushAll_cons h
    obtain ⟨-, -, -, ⟨-, -, hsize, hend⟩, -, hdata⟩ := pushAll_keeps htail
    obtain ⟨hpop, hback⟩ := canPop_of_pushed (u := t.setSp (s.sp - 1#32)) hcan rfl hsize hend
    have hword : t.dataWord s.sp = v :=
      (hdata s.sp (sp_sub_one_lt hcan)).trans ((s.setSp _).dataWord_setData_same s.sp v)
    have hlast : pop (t.setSp (s.sp - 1#32)) = .ok (v, t.setSp s.sp) := by
      rw [pop_of_canPop hpop, hback, State.setSp_dataWord, hword]
      rfl
    rw [List.length_cons, List.reverse_cons]
    exact popAll_succ_last (popAll_of_pushAll htail) hlast

/-- Settles O32: the pops leave the state the pushes left with sp set back, and the pushes kept everything else. -/
theorem stackIsLifo : Obligations.StackIsLifo := by
  intro vs s t h
  obtain ⟨hpc, hcc, hregs, hlimits, hrun, -⟩ := pushAll_keeps h
  exact ⟨_, popAll_of_pushAll h, rfl, hpc, hcc, hregs, hlimits, hrun⟩

end Sys2Proof.Proofs.Stack

/-! When Segment-Data and Segment-Stack fire (60_exceptions.md section 1): each by the equation of the handlers that make
its check, and by the inversion of exec for all the others. -/

namespace Sys2Proof.Proofs.Segments

open Sys2Proof.Machine Sys2Proof.Safety Sys2Proof.Proofs.ImmediateCheck

/-! ## Segment-Data -/

/-- A result that records no Segment-Data of its own. -/
def NoSegmentData (s : State) (r : Result) : Prop :=
  ∀ t, r = .next t → t.faultKind = some .segmentData → s.faultKind = some .segmentData

theorem noSegmentData_next {s t : State} (h : t.faultKind = s.faultKind) : NoSegmentData s (.next t) := by
  rintro _ ⟨⟩ hk
  exact h.symm.trans hk

theorem noSegmentData_raisedStack (s : State) (sp' : Word) :
    NoSegmentData s (.next ((s.setSp sp').raised .segmentStack s.ia)) := by
  rintro _ ⟨⟩ hk
  cases hk

theorem noSegmentData_push (v : Word) (s : State) : NoSegmentData s (finish (push v s)) := by
  rw [finish_push]
  split_ifs
  · exact noSegmentData_next rfl
  · rintro _ ⟨⟩
  · exact noSegmentData_raisedStack s _

/-- Behind its data check an instruction goes on to something that raises no Segment-Data (R128). -/
def DataChecked (a : Word) (s : State) (r : Result) : Prop :=
  ∃ rest, r = (if a < s.dataSize then rest else .next (s.raised .segmentData s.ia)) ∧ NoSegmentData s rest

theorem dataChecked_popTo (o : AddrOperand) (s : State) :
    DataChecked (resolveAddress o s) s (popTo (.address o) s) := by
  refine ⟨_, popTo_address o s, ?_⟩
  split_ifs
  · exact noSegmentData_next rfl
  · exact noSegmentData_raisedStack s _

/-- Every instruction with a data operand checks its address before anything else. -/
theorem exec_dataChecked {i : Instr} {s : State} {a : Word} (h : dataOperand i s = some a) :
    DataChecked a s (exec i s) := by
  cases i with
  | loadAbs rd | loadIdx rd => cases h; exact ⟨_, loadValue_address rd _ s, noSegmentData_next rfl⟩
  | addAbs rd | addIdx rd => cases h; exact ⟨_, arith_address aluAdd rd _ s, noSegmentData_next rfl⟩
  | subAbs rd | subIdx rd => cases h; exact ⟨_, arith_address aluSub rd _ s, noSegmentData_next rfl⟩
  | storeAbs rs | storeIdx rs => cases h; exact ⟨_, storeWord_address rs _ s, noSegmentData_next rfl⟩
  | pushAbs | pushIdx => cases h; exact ⟨_, pushValue_address _ s, noSegmentData_push _ s⟩
  | popAbs a => cases h; exact dataChecked_popTo (.absolute a) s
  | popIdx b o => cases h; exact dataChecked_popTo (.indexed b o) s
  | _ => cases h

/-- The forms that list Segment-Data are those with a data operand. -/
theorem exists_dataOperand_of_canRaise {i : Instr} (h : .segmentData ∈ canRaise i) (s : State) :
    ∃ a, dataOperand i s = some a := by
  cases i <;> simp [canRaise, dataOperand] at h ⊢

theorem exec_of_data_outside {i : Instr} {s : State} {a : Word} (h : dataOperand i s = some a) (ha : s.dataSize ≤ a) :
    exec i s = .next (s.raised .segmentData s.ia) := by
  obtain ⟨rest, hexec, -⟩ := exec_dataChecked h
  rw [hexec, if_neg (BitVec.not_lt.2 ha)]

/-- A Segment-Data that was not there before was raised by the instruction's own data check. -/
theorem data_outside_of_segmentData {i : Instr} {s t : State} (hbefore : s.faultKind ≠ some .segmentData)
    (h : exec i s = .next t) (hkind : t.faultKind = some .segmentData) :
    ∃ a, dataOperand i s = some a ∧ s.dataSize ≤ a := by
  obtain hsame | ⟨k, hk, hrec⟩ := exec_faultKind h
  · exact absurd (hsame.symm.trans hkind) hbefore
  · obtain rfl : k = .segmentData := Option.some.inj (hrec.symm.trans hkind)
    obtain ⟨a, ha⟩ := exists_dataOperand_of_canRaise hk s
    refine ⟨a, ha, BitVec.not_lt.1 fun hin => ?_⟩
    obtain ⟨rest, hexec, hrest⟩ := exec_dataChecked ha
    rw [hexec, if_pos hin] at h
    exact hbefore (hrest t h hkind)

/-- Settles O34: an address outside the data raises at once, and one inside is never the cause. -/
theorem segmentDataFiresOutsideData : Obligations.SegmentDataFiresOutsideData := by
  refine fun i s hbefore => ⟨⟨fun ⟨t, h, hkind⟩ => data_outside_of_segmentData hbefore h hkind, ?_⟩,
    fun a h ha => exec_of_data_outside h ha⟩
  rintro ⟨a, h, ha⟩
  exact ⟨_, exec_of_data_outside h ha, rfl⟩

/-! ## Segment-Stack -/

theorem finish_push_outside {s : State} (hw : s.inWindow (s.sp - 1#32) = false) (v : Word) :
    finish (push v s) = .next ((s.setSp (s.sp - 1#32)).raised .segmentStack s.ia) := by
  rw [finish_push, hw]
  rfl

theorem pushValue_outside {s : State} {o : AddrOperand} (hw : s.inWindow (s.sp - 1#32) = false)
    (ha : resolveAddress o s < s.dataSize) :
    pushValue (.address o) s = .next ((s.setSp (s.sp - 1#32)).raised .segmentStack s.ia) := by
  rw [pushValue_address, if_pos ha, finish_push_outside hw]

theorem popTo_outside {s : State} {o : AddrOperand} (hw : s.inWindow (s.sp + 1#32) = false)
    (ha : resolveAddress o s < s.dataSize) :
    popTo (.address o) s = .next ((s.setSp (s.sp + 1#32)).raised .segmentStack s.ia) := by
  rw [popTo_address, if_pos ha, hw]
  rfl

theorem callTo_outside {c : BitVec 4} {s : State} (hc : (condOfField c).any (condHolds · s.cc) = true)
    (hw : s.inWindow (s.sp - 1#32) = false) (o : AddrOperand) :
    callTo c (.address o) s = .next ((s.setSp (s.sp - 1#32)).raised .segmentStack s.ia) := by
  obtain ⟨k, hk, htrue⟩ := Branch.exists_cond_of_holds ((Branch.holds_iff c s.cc).2 hc)
  simp [callTo_address, hk, htrue, hw]

theorem retPop_outside {s : State} (hw : s.inWindow (s.sp + 1#32) = false) :
    retPop s = .next ((s.setSp (s.sp + 1#32)).raised .segmentStack s.ia) := by
  rw [retPop_eq, hw]
  rfl

/-- A guarded `some` that is answered, taken apart. -/
theorem of_ite_some {c : Prop} [Decidable c] {x y : Word} (h : (if c then some x else none) = some y) : c ∧ x = y := by
  split_ifs at h with hc
  exact ⟨hc, Option.some.inj h⟩

/-- Every instruction that comes to adjust sp to a value outside the window faults with it (R129). -/
theorem exec_of_stack_outside {i : Instr} {s : State} {sp' : Word} (h : adjustedSp i s = some sp')
    (hw : s.inWindow sp' = false) : exec i s = .next ((s.setSp sp').raised .segmentStack s.ia) := by
  cases i with
  | ret => cases h; exact retPop_outside hw
  | pushImm v => cases h; exact finish_push_outside hw v
  | pushAbs a => obtain ⟨ha, rfl⟩ := of_ite_some h; exact pushValue_outside (o := .absolute a) hw ha
  | pushIdx b o => obtain ⟨ha, rfl⟩ := of_ite_some h; exact pushValue_outside (o := .indexed b o) hw ha
  | popAbs a => obtain ⟨ha, rfl⟩ := of_ite_some h; exact popTo_outside (o := .absolute a) hw ha
  | popIdx b o => obtain ⟨ha, rfl⟩ := of_ite_some h; exact popTo_outside (o := .indexed b o) hw ha
  | callAbs c a => obtain ⟨hc, rfl⟩ := of_ite_some h; exact callTo_outside hc hw (.absolute a)
  | callIdx c b o => obtain ⟨hc, rfl⟩ := of_ite_some h; exact callTo_outside hc hw (.indexed b o)
  | _ => cases h

/-- A Segment-Stack that was not there before was raised by the instruction's own stack check. -/
theorem stack_outside_of_segmentStack {i : Instr} {s t : State} (hbefore : s.faultKind ≠ some .segmentStack)
    (h : exec i s = .next t) (hkind : t.faultKind = some .segmentStack) :
    ∃ sp', adjustedSp i s = some sp' ∧ s.inWindow sp' = false := by
  cases exec_leaves h with
  | raisedStack sp' _ ha _ hw => exact ⟨sp', ha, hw⟩
  | raised k _ hn => exact absurd (Option.some.inj hkind) hn
  | unchanged | register | stored | jumped | pushed | called | popped | returned | halted => exact absurd hkind hbefore

/-- Settles O35: outside the window is the negation of the stack check, which every adjusted sp meets. -/
theorem segmentStackFiresOutsideWindow : Obligations.SegmentStackFiresOutsideWindow := by
  intro i s hbefore
  simp only [← State.not_inWindow_iff]
  refine ⟨⟨fun ⟨t, h, hkind⟩ => stack_outside_of_segmentStack hbefore h hkind, ?_⟩,
    fun sp' h hw => exec_of_stack_outside h hw⟩
  rintro ⟨sp', h, hw⟩
  exact ⟨_, exec_of_stack_outside h hw, rfl⟩

end Sys2Proof.Proofs.Segments
